-- ==== Sys2Proof/Word.lean ====
section
/-! DEFINITION. The word types of the block (00_scope.md R7): index bytes and output bytes of 8 bits, palette
entries, pixel slots and header registers of 32 bits. Bit 0 is the least significant bit (R10). -/

namespace Sys2Proof

/-- An index-buffer element or a byte of the output byte stream (`IDX_W = 8`). -/
abbrev Byte := BitVec 8

/-- A palette entry, a pixel slot or a header register (`PAL_W = PIX_W = HDR_W = 32`). -/
abbrev Word := BitVec 32

end Sys2Proof
end

