-- ==== Sys2Proof/Syntax.lean ====
section
/-! DEFINITION. The operations of the block: one constructor of `Instr` per row of spec/opcode_table.json, and the
types of their operands. The two pixel operations carry the fields of their index byte (30_encoding.md R92, R93); the
host commands carry typed operands and have no encoding (R102). -/

namespace Sys2Proof

/-- `HDR.FORMAT`, the decode mode (30_encoding.md R90, R100): `YIQ`, `PAL`, or `OTHER(code)` for every other member
the container's enum may have. -/
inductive Format where
  | yiq
  | pal
  | other (code : Nat)
  deriving DecidableEq, Repr

/-- The three colour channels (00_scope.md R13): column 0 is red, 1 green, 2 blue. -/
inductive Channel where
  | red
  | green
  | blue
  deriving DecidableEq, Repr

/-- One row of a chroma table: the signed contribution to each channel (10_state.md R29). -/
structure ChromaRow where
  r : Int
  g : Int
  b : Int
  deriving DecidableEq, Repr

/-- The entry of a chroma row for a channel: `TBL.chromaX[j][c]`. -/
def ChromaRow.entry (row : ChromaRow) : Channel → Int
  | .red => row.r
  | .green => row.g
  | .blue => row.b

/-- A LumaChromaTable, the YIQ bank of `TBL` (10_state.md R28 to R30). Entries are the integers `int(v)` that signed
`TBL_W`-bit numbers denote; that they fit `TBL_W` bits is `YiqBank.fits` (notes/assumptions/2.md). -/
structure YiqBank where
  luma    : Vector Int 16
  chromaA : Vector ChromaRow 4
  chromaB : Vector ChromaRow 4
  deriving DecidableEq, Repr

/-- A PaletteTable, the PAL bank of `TBL` (10_state.md R31): exactly 256 words. -/
abbrev PalBank := Vector Word 256

/-- What a `READ` may name (42_sequencer_and_host.md R175). -/
inductive ReadName where
  | status
  | idxPtr
  | ibufLen
  | tblKind
  | hdrWidth
  | hdrHeight
  | hdrFormat
  | hdrSmallLod
  | hdrLargeLod
  /-- The pixel slot `OBUF[i]`. -/
  | obuf (i : Nat)
  /-- Byte `j` of the output byte stream. -/
  | ostream (j : Nat)
  deriving DecidableEq, Repr

/-- The nine operations of spec/opcode_table.json. -/
inductive Instr where
  /-- `YIQ.PIX l, a, b` (R121): luma index, chroma-A index, chroma-B index. -/
  | yiqPix (l : BitVec 4) (a : BitVec 2) (b : BitVec 2)
  /-- `PAL.PIX i` (R141): palette index. -/
  | palPix (i : BitVec 8)
  /-- `LOAD_TABLE_YIQ luma, chromaA, chromaB` (R160). -/
  | loadTableYiq (luma : Vector Int 16) (chromaA : Vector ChromaRow 4) (chromaB : Vector ChromaRow 4)
  /-- `LOAD_TABLE_PAL entries` (R161). -/
  | loadTablePal (entries : Vector Word 256)
  /-- `LOAD_INDEX bytes` (R162): a sequence of any length. -/
  | loadIndex (bytes : List Byte)
  /-- `START width, height, format, smallLod, largeLod` (R166); the two LODs are signed. -/
  | start (width height : Word) (format : Format) (smallLod largeLod : Word)
  /-- `CLEAR` (R174). -/
  | clear
  /-- `READ name` (R175). -/
  | read (name : ReadName)
  /-- `RESET` (R240). -/
  | reset
  deriving DecidableEq, Repr

/-- The host commands are the operations "that are not per-pixel" (42_sequencer_and_host.md R177). -/
def Instr.isHostCommand : Instr → Bool
  | .yiqPix _ _ _ => false
  | .palPix _ => false
  | .loadTableYiq _ _ _ => true
  | .loadTablePal _ => true
  | .loadIndex _ => true
  | .start _ _ _ _ _ => true
  | .clear => true
  | .read _ => true
  | .reset => true

/-- The decode mode in which an index byte stands for the operation; none for a host command (30_encoding.md R95,
R102). -/
def Instr.mode : Instr → Option Format
  | .yiqPix _ _ _ => some .yiq
  | .palPix _ => some .pal
  | .loadTableYiq _ _ _ => none
  | .loadTablePal _ => none
  | .loadIndex _ => none
  | .start _ _ _ _ _ => none
  | .clear => none
  | .read _ => none
  | .reset => none

end Sys2Proof
end

