-- ==== Sys2Proof/Decode.lean ====
section
/-! DEFINITION. Decoding and encoding of the index byte (30_encoding.md R90 to R95, R99). The mode selects the
operation, the byte gives its fields; every byte decodes in both modes. Host commands have no encoding (R102). -/

namespace Sys2Proof

/-- Why no operation is read: there is no byte, or the mode is one for which the block has no decoder (30_encoding.md
R99: "the only encodings with no meaning are values of `HDR.FORMAT` other than `YIQ` and `PAL`"). -/
inductive DecodeError where
  | noByte
  | noDecoder (code : Nat)
  deriving DecidableEq, Repr

/-- `li = b[7:4]` (30_encoding.md R92). -/
def lumaField (b : Byte) : BitVec 4 := b.extractLsb' 4 4

/-- `ai = b[3:2]` (30_encoding.md R92). -/
def chromaAField (b : Byte) : BitVec 2 := b.extractLsb' 2 2

/-- `bi = b[1:0]` (30_encoding.md R92). -/
def chromaBField (b : Byte) : BitVec 2 := b.extractLsb' 0 2

/-- The operation of one index byte (30_encoding.md R95). -/
def decodeByte (mode : Format) (b : Byte) : Except DecodeError Instr :=
  match mode with
  | .yiq => .ok (.yiqPix (lumaField b) (chromaAField b) (chromaBField b))
  | .pal => .ok (.palPix b)
  | .other code => .error (.noDecoder code)

/-- The first operation of an index stream and the bytes after it. Every operation is one byte long (30_encoding.md
R91). -/
def decode (mode : Format) : List Byte → Except DecodeError (Instr × List Byte)
  | [] => .error .noByte
  | b :: rest =>
    match decodeByte mode b with
    | .ok i => .ok (i, rest)
    | .error e => .error e

/-- A whole index stream, one operation per byte, in order (30_encoding.md R91). -/
def decodeStream (mode : Format) : List Byte → Except DecodeError (List Instr)
  | [] => .ok []
  | b :: rest =>
    match decodeByte mode b with
    | .error e => .error e
    | .ok i =>
      match decodeStream mode rest with
      | .error e => .error e
      | .ok is => .ok (i :: is)

/-- The index byte of an operation (30_encoding.md R92 "Inverse", R93); none for a host command (R102). -/
def encode : Instr → Option Byte
  | .yiqPix l a b => some (l ++ a ++ b)
  | .palPix i => some i
  | .loadTableYiq _ _ _ => none
  | .loadTablePal _ => none
  | .loadIndex _ => none
  | .start _ _ _ _ _ => none
  | .clear => none
  | .read _ => none
  | .reset => none

/-- The index bytes of a list of operations; none where one of them has no encoding. -/
def encodeStream : List Instr → Option (List Byte)
  | [] => some []
  | i :: is =>
    match encode i, encodeStream is with
    | some b, some bs => some (b :: bs)
    | _, _ => none

/-- The format a platform's number stands for (30_encoding.md R100): its two codes, and `OTHER` for every other
number. -/
def formatOfCode (fmtYiq fmtPal code : Nat) : Format :=
  if code = fmtYiq then .yiq else if code = fmtPal then .pal else .other code

/-- The number a platform gives a format (30_encoding.md R100). -/
def formatCode (fmtYiq fmtPal : Nat) : Format → Nat
  | .yiq => fmtYiq
  | .pal => fmtPal
  | .other code => code

/-- The operation of a row of spec/opcode_table.json whose `nbits` bits are `w`: an index byte read in mode `YIQ`,
since the table's bits do not carry the mode that tells its two 8-bit rows apart (notes/assumptions/16.md). -/
def decodeTableWord (nbits w : Nat) : Option Instr :=
  if nbits = 8 ∧ w < 2 ^ 8 then
    match decode .yiq [BitVec.ofNat 8 w] with
    | .ok (i, _) => some i
    | .error _ => none
  else none

end Sys2Proof
end

