-- ==== Sys2Proof/Config.lean ====
section
/-! DEFINITION. What an implementation fixes (the OPEN parameters of 00_scope.md R7) and the free values that stand
for the spec's `any` (R11: "a value the model must not fix: a draw, free at every use"). -/

namespace Sys2Proof.Config

/-- The OPEN parameters of 00_scope.md R7. "A model takes each `OPEN` parameter as an argument": an instance carries
its own in `State.params`, where nothing writes them (notes/assumptions/1.md). -/
structure Params where
  /-- `TBL_W`: width in bits of one luma or chroma entry, signed two's complement. -/
  tblW      : Nat
  /-- `IBUF_DEPTH`: index bytes and pixel slots the block holds. -/
  ibufDepth : Nat
  /-- `FMT_YIQ`: the number a platform gives the format `YIQ`. -/
  fmtYiq    : Nat
  /-- `FMT_PAL`: the number a platform gives the format `PAL`. -/
  fmtPal    : Nat
  /-- `HOST_MAP`: bus addresses of the host commands, by name; "no rule depends on it". -/
  hostMap   : List (String × Nat)
  deriving DecidableEq, Repr

/-- The constraints of 00_scope.md R7: `TBL_W >= 2`, `IBUF_DEPTH >= 1`, `FMT_YIQ != FMT_PAL`. -/
abbrev Params.wf (p : Params) : Prop := 2 ≤ p.tblW ∧ 1 ≤ p.ibufDepth ∧ p.fmtYiq ≠ p.fmtPal

/-- The parameters `State.reset` carries (notes/assumptions/1.md): `TBL_W` has the spec's default (R7), the depth is
the one of the spec's test vectors (DESIGN CHOICE), the format numbers are those of 93_implementation_defined.md G1
(PRESUMED). -/
def Params.default : Params :=
  { tblW := 16, ibufDepth := 16, fmtYiq := 1, fmtPal := 5, hostMap := [] }

/-- A free 32-bit value: draw number `n` of a word the spec leaves unspecified (notes/assumptions/4.md). -/
opaque freeWord : Nat → Word

/-- A free byte: draw number `n`. -/
opaque freeByte : Nat → Byte

/-- A free format number: draw number `n`. -/
opaque freeFormatCode : Nat → Nat

/-- A free luma or chroma entry before it is narrowed to `TBL_W` bits: draw number `n`, position `k` of the bank. -/
opaque freeEntry : Nat → Nat → Int

/-- A free palette entry: draw number `n`, entry `k`. -/
opaque freePaletteEntry : Nat → Nat → Word

end Sys2Proof.Config
end

