-- ==== Sys2Proof/Machine/State.lean ====
section
/-! DEFINITION. The state of one instance (10_state.md), the host's side of it as plain data, the state after reset,
and the reasons a step can stop. -/

namespace Sys2Proof.Machine

/-- A storage space of bytes as (index, byte) pairs, indices strictly rising. An unlisted index has no value: the
spec's "unspecified" (10_state.md R41), which reads as a free value (notes/assumptions/6.md). -/
abbrev Memory := List Host.Cell

/-- The canonical form. No byte is equal to what an unlisted index reads as, since that is no value. -/
abbrev Memory.wf (m : Memory) : Prop := (m.map Prod.fst).Pairwise (· < ·)

/-- `STATUS.ERR` (60_exceptions.md R200). -/
inductive ErrCode where
  | noError
  | invalidLength
  | badFormat
  | tableMismatch
  deriving DecidableEq, Repr

/-- The four fields of `STATUS` (10_state.md R22). -/
structure Status where
  busy    : Bool
  done    : Bool
  err     : ErrCode
  hosterr : Bool
  deriving DecidableEq, Repr

/-- The header registers (10_state.md R24). `smallLod` and `largeLod` are signed 32-bit numbers. -/
structure Header where
  width    : Word
  height   : Word
  format   : Format
  smallLod : Word
  largeLod : Word
  deriving DecidableEq, Repr

/-- `TBL.KIND` (10_state.md R27). -/
inductive TblKind where
  | none
  | yiq
  | pal
  deriving DecidableEq, Repr

/-- The table store `TBL` (10_state.md R27 to R32): two banks "of which at most one holds a value", under the tag
`TBL.KIND`. The bank not loaded is unspecified: it holds nothing here (notes/assumptions/5.md). -/
inductive Table where
  | none
  | yiq (bank : YiqBank)
  | pal (bank : PalBank)
  deriving DecidableEq, Repr

/-- `TBL.KIND` as the tag of the store. -/
def Table.kind : Table → TblKind
  | .none => .none
  | .yiq _ => .yiq
  | .pal _ => .pal

/-- The value a `READ` returns (42_sequencer_and_host.md R175). -/
inductive Reply where
  /-- `STATUS`, `HDR.WIDTH`, `HDR.HEIGHT`, a pixel slot: an unsigned 32-bit word. -/
  | word (v : Word)
  /-- `HDR.SMALLLOD`, `HDR.LARGELOD`: a signed 32-bit number. -/
  | signed (v : Word)
  /-- A byte of the output byte stream. -/
  | byte (v : Byte)
  /-- `IDX_PTR`, `IBUF_LEN`. -/
  | count (n : Nat)
  | kind (k : TblKind)
  | format (f : Format)
  deriving DecidableEq, Repr

/-- One turn of the interleaving of host commands and pixel steps (20_memory.md R77; notes/assumptions/8.md). -/
inductive Turn where
  /-- The host issues a command. -/
  | host (command : Instr)
  /-- The sequencer takes its step, if one is enabled. -/
  | sequencer
  deriving DecidableEq, Repr

/-- The whole state of one instance: what 10_state.md gives it, the parameters it was built with, and four fields of
the model's own. -/
structure State where
  /-- The OPEN parameters of 00_scope.md R7; nothing writes them (notes/assumptions/1.md). -/
  params     : Config.Params
  /-- `IDX_PTR` (R21). -/
  idxPtr     : Nat
  /-- `STATUS` (R22). -/
  status     : Status
  /-- `HDR` (R24). -/
  hdr        : Header
  /-- The model's own: a `START` has written `HDR` since reset (R175; notes/assumptions/3.md). -/
  hdrWritten : Bool
  /-- `TBL` (R27 to R32). -/
  table      : Table
  /-- `IBUF` (R34). -/
  ibuf       : Memory
  /-- `IBUF_LEN` (R35). -/
  ibufLen    : Nat
  /-- `OBUF` (R36), held as the bytes of the output byte stream `OSTREAM` (20_memory.md R66). -/
  obuf       : Memory
  /-- The model's own: how many free values have been drawn (notes/assumptions/4.md). -/
  draws      : Nat
  /-- The model's own: the value the last `READ` handed the host; none before the first
  (notes/assumptions/10.md). -/
  reply      : Option Reply
  /-- The model's own: the turns still to come; after the last, every turn is the sequencer's
  (notes/assumptions/8.md). -/
  agenda     : List Turn
  deriving DecidableEq, Repr

/-- `PIXEL_COUNT`: the exact product, derived and not stored (10_state.md R25). -/
def Header.pixelCount (h : Header) : Nat := h.width.toNat * h.height.toNat

/-- Why the machine stops. Neither is reached from a state a run reaches (20_memory.md R73, R74). -/
inductive Fault where
  /-- Raised by the fetch of the pixel step at an index at or above `IBUF_DEPTH`: `IBUF` has no such element
  (20_memory.md R60). Safe. -/
  | ibufOutOfRange
  /-- Raised by `YIQ.PIX` and `PAL.PIX` at an index at or above `IBUF_DEPTH`: `OBUF` has no such slot
  (20_memory.md R60). Safe. -/
  | obufOutOfRange
  deriving DecidableEq, Repr

/-- Why a term has no meaning. -/
inductive Refusal where
  /-- An instruction whose meaning the model does not give yet, by its mnemonic; raised by no arm of `exec`. Safe. -/
  | notModelled (mnemonic : String)
  /-- Raised by `READ` of `OBUF[i]` or `OSTREAM[j]` out of range: "not a command of this interface: the model refuses
  it" (42_sequencer_and_host.md R175). Safe. -/
  | readOutOfRange
  /-- Raised by `LOAD_TABLE_YIQ` with an operand that is no signed `TBL_W`-bit number: not a command of the interface
  (42_sequencer_and_host.md R160, "The operand types make a wrong-sized table unwritable"; notes/assumptions/2.md).
  Safe. -/
  | operandTooWide
  /-- Raised by a step whose turn hands in a pixel operation as a host command: not one of the commands of
  42_sequencer_and_host.md R177 (notes/assumptions/11.md). Safe. -/
  | notAHostCommand
  /-- Raised by the pixel step when `HDR.FORMAT` is `OTHER(code)`: no decoder, and "`HDR.FORMAT` is `YIQ` or `PAL`
  whenever `STATUS.BUSY = 1`" (42_sequencer_and_host.md R170; notes/assumptions/13.md). Safe. -/
  | noDecoder (code : Nat)
  deriving DecidableEq, Repr

/-- The values the header registers hold at reset. The spec gives none and no `READ` returns them
(notes/assumptions/3.md). DESIGN CHOICE. -/
def Header.atReset : Header :=
  { width := 0, height := 0, format := .other 0, smallLod := 0, largeLod := 0 }

/-- `STATUS` at reset: all four fields 0 (10_state.md R41). -/
def Status.atReset : Status := { busy := false, done := false, err := .noError, hosterr := false }

/-- An instance with parameters `p` right after reset (10_state.md R41), nothing queued by the host. -/
def State.resetWith (p : Config.Params) : State :=
  { params := p
    idxPtr := 0
    status := Status.atReset
    hdr := Header.atReset
    hdrWritten := false
    table := .none
    ibuf := []
    ibufLen := 0
    obuf := []
    draws := 0
    reply := none
    agenda := [] }

/-- The machine right after reset (10_state.md R41). -/
def State.reset : State := State.resetWith Config.Params.default

end Sys2Proof.Machine
end

