-- ==== Sys2Proof/Machine/Ops.lean ====
section
/-! DEFINITION. The named operations over the storage spaces and the registers (20_memory.md), dropping a host
command, and recording an error, which is all the exception the block has (60_exceptions.md R204, R209). -/

namespace Sys2Proof.Machine

/-- What the outcomes of this model are. -/
abbrev Result := Host.Outcome State Fault Refusal

/-- Run `f` on the next state; a stop stays a stop. -/
def andThen (o : Result) (f : State → Result) : Result :=
  match o with
  | .next s => f s
  | .fault r => .fault r
  | .refused r => .refused r

/-! ### Bytes -/

/-- The byte at an index, if one has been written there. -/
def Memory.read? : Memory → Nat → Option Byte
  | [], _ => none
  | (k, v) :: m, a => if k = a then some v else Memory.read? m a

/-- Write the byte at an index; the indices stay strictly rising. -/
def Memory.write : Memory → Nat → Byte → Memory
  | [], a, v => [(a, v)]
  | (k, w) :: m, a, v =>
    if a < k then (a, v) :: (k, w) :: m
    else if a = k then (a, v) :: m
    else (k, w) :: Memory.write m a v

/-- A space that holds the given bytes at the indices from `n` up and nothing else. -/
def Memory.ofBytesFrom : Nat → List Byte → Memory
  | _, [] => []
  | n, b :: bs => (n, b) :: Memory.ofBytesFrom (n + 1) bs

/-- A space that holds the given bytes at the indices from 0 up and nothing else (42_sequencer_and_host.md R162). -/
def Memory.ofBytes (bytes : List Byte) : Memory := Memory.ofBytesFrom 0 bytes

/-! ### Pixel slots: four bytes, least significant first (20_memory.md R66) -/

/-- Byte `k` of a slot, `v[8k+7:8k]` (R66). -/
def slotByte (v : Word) (k : Nat) : Byte := v.extractLsb' (8 * k) 8

/-- The slot of four bytes, `b0` the least significant (R66). -/
def slotOf (b0 b1 b2 b3 : Byte) : Word := b3 ++ b2 ++ b1 ++ b0

/-- `OBUF[i]`, if the slot has been written (R66). -/
def Memory.readSlot? (m : Memory) (i : Nat) : Option Word :=
  match m.read? (4 * i), m.read? (4 * i + 1), m.read? (4 * i + 2), m.read? (4 * i + 3) with
  | some b0, some b1, some b2, some b3 => some (slotOf b0 b1 b2 b3)
  | _, _, _, _ => none

/-- `OBUF[i] <- v`, which is `MemWrite(4*i, 4, v)` (00_scope.md R11, 20_memory.md R66). -/
def Memory.writeSlot (m : Memory) (i : Nat) (v : Word) : Memory :=
  (((m.write (4 * i) (slotByte v 0)).write (4 * i + 1) (slotByte v 1)).write (4 * i + 2) (slotByte v 2)).write
    (4 * i + 3) (slotByte v 3)

/-- A pixel operation's store `OBUF[IDX_PTR] <- v` (20_memory.md R61, R147): its whole effect on the state. -/
def storePixel (v : Word) (s : State) : Result :=
  if s.idxPtr < s.params.ibufDepth then .next { s with obuf := s.obuf.writeSlot s.idxPtr v }
  else .fault .obufOutOfRange

/-! ### Free values -/

/-- The state after one free value has been drawn (00_scope.md R11 `any`). -/
def drawn (s : State) : State := { s with draws := s.draws + 1 }

/-- The signed `w`-bit number that has the low `w` bits of `v`: what bounds a free entry (10_state.md R28). -/
def narrowTo (w : Nat) (v : Int) : Int := (BitVec.ofInt w v).toInt

/-- An unspecified YIQ bank: draw `n`, every entry free within `TBL_W` bits (10_state.md R41). -/
def freeYiqBank (w n : Nat) : YiqBank :=
  { luma := Vector.ofFn fun i => narrowTo w (Config.freeEntry n i)
    chromaA := Vector.ofFn fun j =>
      ⟨narrowTo w (Config.freeEntry n (16 + 3 * j)), narrowTo w (Config.freeEntry n (17 + 3 * j)),
        narrowTo w (Config.freeEntry n (18 + 3 * j))⟩
    chromaB := Vector.ofFn fun k =>
      ⟨narrowTo w (Config.freeEntry n (28 + 3 * k)), narrowTo w (Config.freeEntry n (29 + 3 * k)),
        narrowTo w (Config.freeEntry n (30 + 3 * k))⟩ }

/-- An unspecified PAL bank: draw `n`, every entry free (10_state.md R41). -/
def freePalBank (n : Nat) : PalBank := Vector.ofFn fun i => Config.freePaletteEntry n i

/-! ### Registers -/

/-- The header registers are "written together, and only, by `START`" (10_state.md R24). -/
def writeHeader (h : Header) (s : State) : State := { s with hdr := h, hdrWritten := true }

/-- `RESET` of the block (10_state.md R41): every field that is the spec's, and nothing of the host's side. -/
def resetBlock (s : State) : State :=
  { State.resetWith s.params with draws := s.draws, reply := s.reply, agenda := s.agenda }

/-! ### Host commands that are dropped, and errors -/

/-- A dropped host command: "change no state except `STATUS.HOSTERR <- 1`" (42_sequencer_and_host.md R163, R164). -/
def dropCommand (s : State) : State := { s with status := { s.status with hosterr := true } }

/-- The commands that are dropped while `STATUS.BUSY = 1` (R163) act only when idle. -/
def whenIdle (s : State) (act : State → Result) : Result :=
  if s.status.busy then .next (dropCommand s) else act s

/-- `raise <Error>` (60_exceptions.md R204): `STATUS.ERR <- code` and the command ends; nothing is saved and control
goes nowhere. `STATUS.BUSY` and `STATUS.DONE` are 0 where `START` raises. -/
def raiseError (e : ErrCode) (s : State) : State := { s with status := { s.status with err := e } }

/-- What stands in the place of a return (60_exceptions.md R209): `START` first sets `STATUS.DONE <- 0` and
`STATUS.ERR <- 0`. -/
def clearOutcome (s : State) : State := { s with status := { s.status with done := false, err := .noError } }

end Sys2Proof.Machine
end

