-- ==== Sys2Proof/Machine/Flags.lean ====
section
/-! DEFINITION. The fields of `STATUS` (10_state.md R22) and everything that computes them: the word a host reads, the
checks of `START` (42_sequencer_and_host.md R167), and the end of a run (R170, R171). The pixel operations write no
flag (10_state.md R23). -/

namespace Sys2Proof.Machine

/-- The two bits of `STATUS.ERR` (60_exceptions.md R200). -/
def ErrCode.bits : ErrCode → BitVec 2
  | .noError => 0
  | .invalidLength => 1
  | .badFormat => 2
  | .tableMismatch => 3

/-- `READ STATUS`: `{0 (27 bits), HOSTERR, ERR[1:0], DONE, BUSY}` (42_sequencer_and_host.md R175). -/
def statusWord (st : Status) : Word :=
  (0 : BitVec 27) ++ BitVec.ofBool st.hosterr ++ st.err.bits ++ BitVec.ofBool st.done ++ BitVec.ofBool st.busy

/-- The kind of table a format needs; none for `OTHER` (60_exceptions.md R203). -/
def Format.tableKind : Format → Option TblKind
  | .yiq => some .yiq
  | .pal => some .pal
  | .other _ => none

/-- The checks of `START` in the order they are made; the first that fails gives the code
(42_sequencer_and_host.md R167, 60_exceptions.md R206). -/
def startCheck (h : Header) (kind : TblKind) (len : Nat) : ErrCode :=
  match Format.tableKind h.format with
  | none => .badFormat
  | some k => if kind ≠ k then .tableMismatch else if len < h.pixelCount then .invalidLength else .noError

/-- An accepted `START` with `PIXEL_COUNT > 0`: `STATUS.BUSY <- 1` (42_sequencer_and_host.md R168). -/
def setBusy (s : State) : State := { s with status := { s.status with busy := true } }

/-- The end of a run: `STATUS.BUSY <- 0; STATUS.DONE <- 1` (42_sequencer_and_host.md R169 to R171). -/
def setDone (s : State) : State := { s with status := { s.status with busy := false, done := true } }

/-- `CLEAR` of the three flags (42_sequencer_and_host.md R174). -/
def clearFlags (s : State) : State :=
  { s with status := { s.status with done := false, err := .noError, hosterr := false } }

end Sys2Proof.Machine
end

