-- ==== Sys2Proof/WellFormed.lean ====
section
/-! DEFINITION. Which terms of `Instr` are operations of an instance with given parameters: the bounds of the operand
types that the Lean types do not carry already. -/

namespace Sys2Proof

/-- `v` is a signed `w`-bit two's complement number: `-2^(w-1) <= v < 2^(w-1)` (00_scope.md R11 `int`). -/
def fitsWidth (w : Nat) (v : Int) : Bool := decide (-(2 ^ (w - 1) : Int) ≤ v) && decide (v < (2 ^ (w - 1) : Int))

/-- Every entry of a chroma row is a signed `w`-bit number (10_state.md R29). -/
def ChromaRow.fits (w : Nat) (row : ChromaRow) : Bool := fitsWidth w row.r && fitsWidth w row.g && fitsWidth w row.b

/-- Every entry of the bank is a signed `w`-bit number (10_state.md R28 to R30). -/
def YiqBank.fits (w : Nat) (t : YiqBank) : Bool :=
  t.luma.toList.all (fitsWidth w) && t.chromaA.toList.all (ChromaRow.fits w) && t.chromaB.toList.all (ChromaRow.fits w)

/-- A format operand: `OTHER(code)` is for numbers other than `FMT_YIQ` and `FMT_PAL` (30_encoding.md R100). -/
def Format.wf (p : Config.Params) : Format → Bool
  | .yiq => true
  | .pal => true
  | .other code => decide (code ≠ p.fmtYiq) && decide (code ≠ p.fmtPal)

/-- A readable name: `OBUF[i]` with `i < IBUF_DEPTH`, `OSTREAM[j]` with `j < 4*IBUF_DEPTH`
(42_sequencer_and_host.md R175). -/
def ReadName.wf (p : Config.Params) : ReadName → Bool
  | .status => true
  | .idxPtr => true
  | .ibufLen => true
  | .tblKind => true
  | .hdrWidth => true
  | .hdrHeight => true
  | .hdrFormat => true
  | .hdrSmallLod => true
  | .hdrLargeLod => true
  | .obuf i => decide (i < p.ibufDepth)
  | .ostream j => decide (j < 4 * p.ibufDepth)

/-- The well-formed operations of an instance. Every index byte is legal in both modes (30_encoding.md R99), and
`LOAD_INDEX` takes a sequence of any length (42_sequencer_and_host.md R162: `0 <= n`). -/
def Instr.wf (p : Config.Params) : Instr → Bool
  | .yiqPix _ _ _ => true
  | .palPix _ => true
  | .loadTableYiq luma chromaA chromaB => YiqBank.fits p.tblW ⟨luma, chromaA, chromaB⟩
  | .loadTablePal _ => true
  | .loadIndex _ => true
  | .start _ _ format _ _ => format.wf p
  | .clear => true
  | .read name => name.wf p
  | .reset => true

end Sys2Proof
end

