-- ==== Sys2Proof/Machine/Operands.lean ====
section
/-! DEFINITION. The operand forms: the two addressing forms of the pixel operations, "table indexed by a field of the
fetched byte" (41_palette_decoder.md R147), and the names a `READ` takes (42_sequencer_and_host.md R175). -/

namespace Sys2Proof.Machine

/-- The YIQ bank as the pixel operation finds it: the one loaded, or an unspecified one (10_state.md R32). -/
def yiqBank (s : State) : YiqBank :=
  match s.table with
  | .yiq bank => bank
  | .none => freeYiqBank s.params.tblW s.draws
  | .pal _ => freeYiqBank s.params.tblW s.draws

/-- The PAL bank as the pixel operation finds it: the one loaded, or an unspecified one (10_state.md R32). -/
def palBank (s : State) : PalBank :=
  match s.table with
  | .pal bank => bank
  | .none => freePalBank s.draws
  | .yiq _ => freePalBank s.draws

/-- The state after the pixel operation of kind `k` has read its bank: an unspecified bank takes one draw. -/
def afterTableRead (k : TblKind) (s : State) : State := if s.table.kind = k then s else drawn s

/-- `TBL.luma[li]`; the index is unsigned (41_palette_decoder.md R147). -/
def lumaOperand (t : YiqBank) (l : BitVec 4) : Int := t.luma[l.toNat]'l.isLt

/-- `TBL.chromaA[ai][c]` (41_palette_decoder.md R147). -/
def chromaAOperand (t : YiqBank) (a : BitVec 2) (c : Channel) : Int := (t.chromaA[a.toNat]'a.isLt).entry c

/-- `TBL.chromaB[bi][c]` (41_palette_decoder.md R147). -/
def chromaBOperand (t : YiqBank) (b : BitVec 2) (c : Channel) : Int := (t.chromaB[b.toNat]'b.isLt).entry c

/-- `TBL.entries[idx]`; "never sign-extended" (30_encoding.md R93). -/
def paletteOperand (p : PalBank) (i : BitVec 8) : Word := p[i.toNat]'i.isLt

/-- Hand the host a value (42_sequencer_and_host.md R175: "returns a value and changes no state"). -/
def answer (r : Reply) (s : State) : Result := .next { s with reply := some r }

/-- Hand the host a free value, "a fresh draw at each read" (10_state.md R41). -/
def answerFree (f : Nat → Reply) (s : State) : Result := .next { drawn s with reply := some (f s.draws) }

/-- A read of a header register: "the value written by the last `START`; `any` if no `START` since reset"
(42_sequencer_and_host.md R175). -/
def answerHeader (value : Header → Reply) (free : Nat → Reply) (s : State) : Result :=
  if s.hdrWritten then answer (value s.hdr) s else answerFree free s

/-- A read of the output buffer: the value when idle, `any` "if the slot was never written since reset" or "when
`STATUS.BUSY = 1`" (42_sequencer_and_host.md R175, 20_memory.md R79). -/
def answerOutput (value : Option Reply) (free : Nat → Reply) (s : State) : Result :=
  if s.status.busy then answerFree free s
  else
    match value with
    | some r => answer r s
    | none => answerFree free s

/-- A free format: any of `YIQ`, `PAL` and the `OTHER` codes (10_state.md R41). -/
def freeFormat (p : Config.Params) (n : Nat) : Format := formatOfCode p.fmtYiq p.fmtPal (Config.freeFormatCode n)

/-- `OSTREAM[j]`: byte `j mod 4` of `OBUF[j div 4]`, if the slot has been written (42_sequencer_and_host.md R175). -/
def streamByte? (s : State) (j : Nat) : Option Byte := (s.obuf.readSlot? (j / 4)).map fun v => slotByte v (j % 4)

end Sys2Proof.Machine
end

