-- ==== Sys2Proof/Machine/HostCommands.lean ====
section
/-! DEFINITION. The host commands (42_sequencer_and_host.md R160 to R175, 70_reset_and_hazards.md R240). Each is one
atomic transition. -/

namespace Sys2Proof.Machine

/-- `LOAD_TABLE_YIQ` (R160): replaces the table store whole and leaves the PAL bank unspecified. -/
def execLoadTableYiq (luma : Vector Int 16) (chromaA chromaB : Vector ChromaRow 4) (s : State) : Result :=
  if YiqBank.fits s.params.tblW ⟨luma, chromaA, chromaB⟩ then
    whenIdle s fun s => .next { s with table := .yiq ⟨luma, chromaA, chromaB⟩ }
  else .refused .operandTooWide

/-- `LOAD_TABLE_PAL` (R161): replaces the table store whole and leaves the YIQ bank unspecified. -/
def execLoadTablePal (entries : Vector Word 256) (s : State) : Result :=
  whenIdle s fun s => .next { s with table := .pal entries }

/-- `LOAD_INDEX` (R162): replaces the index buffer whole; a sequence longer than the buffer is dropped whole
(R164). -/
def execLoadIndex (bytes : List Byte) (s : State) : Result :=
  whenIdle s fun s =>
    if bytes.length ≤ s.params.ibufDepth then
      .next { s with ibuf := Memory.ofBytes bytes, ibufLen := bytes.length }
    else .next (dropCommand s)

/-- `START` after the header is latched and the outcome of the last run cleared (R166): record the first check that
fails, or accept (R168, R169). A refused `START` leaves `IDX_PTR` alone (90_conflicts.md C7). -/
def decideStart (s : State) : State :=
  match startCheck s.hdr s.table.kind s.ibufLen with
  | .noError => if s.hdr.pixelCount = 0 then setDone { s with idxPtr := 0 } else setBusy { s with idxPtr := 0 }
  | e => raiseError e s

/-- `START` (R166). The header registers are written even when the `START` is then refused. -/
def execStart (width height : Word) (format : Format) (smallLod largeLod : Word) (s : State) : Result :=
  whenIdle s fun s => .next (decideStart (clearOutcome (writeHeader ⟨width, height, format, smallLod, largeLod⟩ s)))

/-- `CLEAR` (R174). -/
def execClear (s : State) : Result := whenIdle s fun s => .next (clearFlags s)

/-- `READ name` (R175): legal busy or idle. -/
def execRead (name : ReadName) (s : State) : Result :=
  match name with
  | .status => answer (.word (statusWord s.status)) s
  | .idxPtr => answer (.count s.idxPtr) s
  | .ibufLen => answer (.count s.ibufLen) s
  | .tblKind => answer (.kind s.table.kind) s
  | .hdrWidth => answerHeader (fun h => .word h.width) (fun n => .word (Config.freeWord n)) s
  | .hdrHeight => answerHeader (fun h => .word h.height) (fun n => .word (Config.freeWord n)) s
  | .hdrFormat => answerHeader (fun h => .format h.format) (fun n => .format (freeFormat s.params n)) s
  | .hdrSmallLod => answerHeader (fun h => .signed h.smallLod) (fun n => .signed (Config.freeWord n)) s
  | .hdrLargeLod => answerHeader (fun h => .signed h.largeLod) (fun n => .signed (Config.freeWord n)) s
  | .obuf i =>
    if i < s.params.ibufDepth then
      answerOutput ((s.obuf.readSlot? i).map .word) (fun n => .word (Config.freeWord n)) s
    else .refused .readOutOfRange
  | .ostream j =>
    if j < 4 * s.params.ibufDepth then
      answerOutput ((streamByte? s j).map .byte) (fun n => .byte (Config.freeByte n)) s
    else .refused .readOutOfRange

/-- `RESET` (70_reset_and_hazards.md R240): "accepted in every state, busy or idle". -/
def execReset (s : State) : Result := .next (resetBlock s)

end Sys2Proof.Machine
end

