-- ==== Sys2Proof/Machine/PaletteDecoder.lean ====
section
/-! DEFINITION. The direct-palette lookup engine (41_palette_decoder.md) and `PAL.PIX`. -/

namespace Sys2Proof.Machine

/-- `e[23:16]` (30_encoding.md R96). -/
def entryRed (e : Word) : Byte := e.extractLsb' 16 8

/-- `e[15:8]` (30_encoding.md R96). -/
def entryGreen (e : Word) : Byte := e.extractLsb' 8 8

/-- `e[7:0]` (30_encoding.md R96). -/
def entryBlue (e : Word) : Byte := e.extractLsb' 0 8

/-- `pal(P, b)`: the bytes B, G, R, `0xFF` in ascending stream position (R141, 30_encoding.md R98). -/
def palPixel (p : PalBank) (i : BitVec 8) : Word :=
  let e := paletteOperand p i
  slotOf (entryBlue e) (entryGreen e) (entryRed e) 0xFF

/-- `PAL.PIX` (R141): the four bytes at `OSTREAM[4*IDX_PTR ..]` and nothing else (R145). The advance of `IDX_PTR` is
the pixel step's (42_sequencer_and_host.md R170). -/
def execPalPix (i : BitVec 8) (s : State) : Result := storePixel (palPixel (palBank s) i) (afterTableRead .pal s)

end Sys2Proof.Machine
end

