-- ==== Sys2Proof/Machine/YiqDecoder.lean ====
section
/-! DEFINITION. The YIQ datapath (40_yiq_decoder.md): lookup, exact sum, clamp, pack, and `YIQ.PIX`. -/

namespace Sys2Proof.Machine

/-- The saturation clamp to `0 .. 255` (R123). -/
def clamp255 (s : Int) : Byte := if s < 0 then 0 else if 255 < s then 255 else BitVec.ofInt 8 s

/-- The exact sum of a channel, before the clamp (R122). -/
def channelSum (t : YiqBank) (l : BitVec 4) (a b : BitVec 2) (c : Channel) : Int :=
  lumaOperand t l + chromaAOperand t a c + chromaBOperand t b c

/-- One lane of the datapath (R125). -/
def channelByte (t : YiqBank) (l : BitVec 4) (a b : BitVec 2) (c : Channel) : Byte := clamp255 (channelSum t l a b c)

/-- `yiq(T, b)`, the pixel `{0xFF, ch[2], ch[1], ch[0]}` (R121, 30_encoding.md R97). -/
def yiqPixel (t : YiqBank) (l : BitVec 4) (a b : BitVec 2) : Word :=
  0xFF#8 ++ channelByte t l a b .blue ++ channelByte t l a b .green ++ channelByte t l a b .red

/-- `YIQ.PIX` (R121): the pixel at `OBUF[IDX_PTR]` and nothing else (R129). The advance of `IDX_PTR` is the pixel
step's (42_sequencer_and_host.md R170). -/
def execYiqPix (l : BitVec 4) (a b : BitVec 2) (s : State) : Result :=
  storePixel (yiqPixel (yiqBank s) l a b) (afterTableRead .yiq s)

end Sys2Proof.Machine
end

