-- ==== Sys2Proof/Machine/Dispatch.lean ====
section
/-! DEFINITION. One arm per operation: each calls its meaning. -/

namespace Sys2Proof.Machine

def exec (i : Instr) (s : State) : Host.Outcome State Fault Refusal :=
  match i with
  | .yiqPix l a b => Sys2Proof.Machine.execYiqPix l a b s
  | .palPix idx => Sys2Proof.Machine.execPalPix idx s
  | .loadTableYiq luma chromaA chromaB => Sys2Proof.Machine.execLoadTableYiq luma chromaA chromaB s
  | .loadTablePal entries => Sys2Proof.Machine.execLoadTablePal entries s
  | .loadIndex bytes => Sys2Proof.Machine.execLoadIndex bytes s
  | .start width height format smallLod largeLod => Sys2Proof.Machine.execStart width height format smallLod largeLod s
  | .clear => Sys2Proof.Machine.execClear s
  | .read name => Sys2Proof.Machine.execRead name s
  | .reset => Sys2Proof.Machine.execReset s

end Sys2Proof.Machine
end

