-- ==== Sys2Proof/Machine/Sequencer.lean ====
section
/-! DEFINITION. The parts of a step around `exec`: whose turn it is (20_memory.md R77), the fetch
(42_sequencer_and_host.md R165), the decoding of the fetched byte, and the end of a pixel step (R170); and the state in
which a given index byte is the next operation. -/

namespace Sys2Proof.Machine

/-- The agent that moves next, and the state with that turn taken from the agenda. When the agenda is empty it is the
sequencer (notes/assumptions/8.md). -/
def takeTurn (s : State) : Turn × State :=
  match s.agenda with
  | [] => (.sequencer, s)
  | t :: rest => (t, { s with agenda := rest })

/-- The fetch `b = IBUF[IDX_PTR]` (R165). An index at or above `IBUF_DEPTH` is no element of `IBUF`; a byte never
loaded is a free value. Neither occurs in a run (20_memory.md R73). -/
def fetchByte (s : State) : Host.Outcome (Byte × State) Fault Refusal :=
  if s.idxPtr < s.params.ibufDepth then
    match s.ibuf.read? s.idxPtr with
    | some b => .next (b, s)
    | none => .next (Config.freeByte s.draws, drawn s)
  else .fault .ibufOutOfRange

/-- Fetch a byte and decode it under the mode `HDR.FORMAT` (30_encoding.md R90). -/
def fetchInstr (s : State) : Host.Outcome (Instr × State) Fault Refusal :=
  match fetchByte s with
  | .next (b, s1) =>
    match decodeByte s1.hdr.format b with
    | .ok i => .next (i, s1)
    | .error (.noDecoder code) => .refused (.noDecoder code)
    | .error .noByte => .fault .ibufOutOfRange
  | .fault r => .fault r
  | .refused r => .refused r

/-- The end of a pixel step (R170): `IDX_PTR <- i + 1`, and the end of the run at `PIXEL_COUNT`. -/
def finishPixel (s : State) : State :=
  let s1 := { s with idxPtr := s.idxPtr + 1 }
  if s.idxPtr + 1 = s.hdr.pixelCount then setDone s1 else s1

/-- The YIQ table that stands for the load of one where none is loaded (notes/assumptions/16.md). -/
def zeroYiqBank : YiqBank :=
  { luma := Vector.replicate 16 0, chromaA := Vector.replicate 4 ⟨0, 0, 0⟩, chromaB := Vector.replicate 4 ⟨0, 0, 0⟩ }

/-- A table of the kind a mode needs, the loaded one where it is of that kind (notes/assumptions/16.md). -/
def tableFor (mode : Format) (t : Table) : Table :=
  match mode, t with
  | .yiq, .yiq bank => .yiq bank
  | .yiq, _ => .yiq zeroYiqBank
  | .pal, .pal bank => .pal bank
  | .pal, _ => .pal (Vector.replicate 256 0)
  | .other _, t => t

/-- The state right after a host has loaded the one index byte `b` and started a one-pixel run in `mode`, with the
sequencer to move next: where the pixel step fetches `b` (notes/assumptions/16.md). -/
def withIndexByte (mode : Format) (b : Byte) (s : State) : State :=
  { s with
    idxPtr := 0
    status := { s.status with busy := true, done := false, err := .noError }
    hdr := { s.hdr with width := 1, height := 1, format := mode }
    hdrWritten := true
    table := tableFor mode s.table
    ibuf := Memory.ofBytes [b]
    ibufLen := 1
    agenda := .sequencer :: s.agenda }

end Sys2Proof.Machine
end

