-- ==== Sys2Proof/Machine/Step.lean ====
section
/-! DEFINITION. One step: a host command, or the sequencer's pixel step (42_sequencer_and_host.md R170). -/

namespace Sys2Proof.Machine

/-- The pixel step (R170): fetch, decode, perform the operation at `IDX_PTR`, advance. -/
def pixelStep (s : State) : Host.Outcome State Fault Refusal :=
  match fetchInstr s with
  | .next (i, s1) => andThen (exec i s1) fun s2 => .next (finishPixel s2)
  | .fault r => .fault r
  | .refused r => .refused r

/-- The sequencer's turn: its step is "enabled exactly when `STATUS.BUSY = 1`" (R170); otherwise nothing happens
(70_reset_and_hazards.md R241). -/
def sequencerTurn (s : State) : Host.Outcome State Fault Refusal := if s.status.busy then pixelStep s else .next s

/-- The host's turn: one of the commands of R177. -/
def hostTurn (command : Instr) (s : State) : Host.Outcome State Fault Refusal :=
  if command.isHostCommand then exec command s else .refused .notAHostCommand

/-- One step of the machine: the next turn of the interleaving (20_memory.md R77). -/
def step (s : State) : Host.Outcome State Fault Refusal :=
  match takeTurn s with
  | (.host command, s1) => hostTurn command s1
  | (.sequencer, s1) => sequencerTurn s1

/-- The state in which the very next step fetches and runs the index byte `w`, in mode `YIQ`
(notes/assumptions/16.md). -/
def State.withFetchWord (s : State) (nbits w : Nat) : State := withIndexByte .yiq (BitVec.ofNat 8 (w % 2 ^ nbits)) s

end Sys2Proof.Machine
end

