-- ==== Sys2Proof/Safety.lean ====
section
/-! DEFINITION. The terms claims are stated in: the invariant that holds in every state a run reaches, what it means
that slots hold the decoded pixels, and which turns an orderly host hands in. -/

namespace Sys2Proof.Machine

/-- `v` is the saturation of `z` to `0 .. 255`, clause by clause as 40_yiq_decoder.md R123 gives it. -/
def Saturates (z : Int) (v : Byte) : Prop :=
  (z < 0 → v.toNat = 0) ∧ (255 < z → v.toNat = 255) ∧ (0 ≤ z → z ≤ 255 → (v.toNat : Int) = z)

/-- The `STATUS` invariants of 10_state.md R22. -/
structure Status.Legal (st : Status) : Prop where
  busy_clean : st.busy = true → st.done = false ∧ st.err = .noError
  done_clean : st.done = true → st.err = .noError
  err_stops  : st.err ≠ .noError → st.busy = false ∧ st.done = false

/-- Every entry of a loaded YIQ bank is a signed `w`-bit number (10_state.md R28 to R30). -/
def Table.Fits (w : Nat) : Table → Prop
  | .none => True
  | .yiq bank => bank.fits w = true
  | .pal _ => True

/-- What every state a run reaches satisfies. -/
structure Inv (s : State) : Prop where
  /-- The constraints on the parameters (00_scope.md R7). -/
  params_wf   : s.params.wf
  /-- `IBUF` holds exactly the bytes `0 .. IBUF_LEN-1`, in canonical form (10_state.md R34). -/
  ibuf_cells  : s.ibuf.map Prod.fst = List.range s.ibufLen
  /-- 10_state.md R35. -/
  ibufLen_le  : s.ibufLen ≤ s.params.ibufDepth
  /-- The canonical form of the output bytes. -/
  obuf_wf     : Memory.wf s.obuf
  /-- Every byte written lies in `OSTREAM[0 .. 4*IBUF_DEPTH-1]` (20_memory.md R74). -/
  obuf_range  : ∀ c ∈ s.obuf, c.1 < 4 * s.params.ibufDepth
  /-- Slots are written whole (20_memory.md R67). -/
  obuf_whole  : ∀ i k, k < 4 → ((s.obuf.read? (4 * i + k)).isSome ↔ (s.obuf.readSlot? i).isSome)
  /-- 10_state.md R21. -/
  idxPtr_le   : s.idxPtr ≤ s.params.ibufDepth
  /-- 10_state.md R22. -/
  status_ok   : s.status.Legal
  /-- 10_state.md R28 to R30. -/
  table_fits  : s.table.Fits s.params.tblW
  /-- During a run the header is the run's, its table is loaded, and the pixel at `IDX_PTR` is a loaded byte
  (42_sequencer_and_host.md R167, R170). -/
  run_ok      : s.status.busy = true → s.hdrWritten = true ∧ Format.tableKind s.hdr.format = some s.table.kind ∧
                  s.idxPtr < s.hdr.pixelCount ∧ s.hdr.pixelCount ≤ s.ibufLen
  /-- At the end of a run `IDX_PTR = PIXEL_COUNT` (42_sequencer_and_host.md R171). -/
  done_ok     : s.status.done = true → s.idxPtr = s.hdr.pixelCount

/-- The pixel a table gives for an index byte: `yiq(T, b)` or `pal(P, b)` (42_sequencer_and_host.md R173). -/
def pixelOf : Table → Byte → Option Word
  | .none, _ => none
  | .yiq bank, b => some (yiqPixel bank (lumaField b) (chromaAField b) (chromaBField b))
  | .pal bank, b => some (palPixel bank b)

/-- Slots `0 .. n-1` of `obuf` hold the pixels `t` gives for the bytes `0 .. n-1` of `ibuf`
(42_sequencer_and_host.md R171). -/
def DecodedUpTo (t : Table) (ibuf obuf : Memory) (n : Nat) : Prop :=
  ∀ i < n, ∃ b w, ibuf.read? i = some b ∧ pixelOf t b = some w ∧ obuf.readSlot? i = some w

/-- The loop invariant of a run: the pixels already stepped over are in `OBUF` (42_sequencer_and_host.md R170). -/
def RunDecoded (s : State) : Prop := s.status.busy = true → DecodedUpTo s.table s.ibuf s.obuf s.idxPtr

/-- The agent that moves next (20_memory.md R77): the head of the agenda, the sequencer when it is empty. -/
def nextTurn (s : State) : Turn := s.agenda.head?.getD .sequencer

/-- The state with the next turn taken from the agenda. -/
def afterTurn (s : State) : State := { s with agenda := s.agenda.tail }

/-- A turn in which the host, if it moves, issues a well-formed host command (42_sequencer_and_host.md R177). -/
def Turn.Orderly (p : Config.Params) : Turn → Prop
  | .host command => command.isHostCommand = true ∧ command.wf p = true
  | .sequencer => True

/-- The commands that are dropped while `STATUS.BUSY = 1` (42_sequencer_and_host.md R163). -/
def droppedWhenBusy : Instr → Bool
  | .yiqPix _ _ _ => false
  | .palPix _ => false
  | .loadTableYiq _ _ _ => true
  | .loadTablePal _ => true
  | .loadIndex _ => true
  | .start _ _ _ _ _ => true
  | .clear => true
  | .read _ => false
  | .reset => false

/-- The command is dropped in this state (60_exceptions.md R207). -/
def Dropped (command : Instr) (s : State) : Prop :=
  (s.status.busy = true ∧ droppedWhenBusy command = true) ∨
    ∃ bytes, command = .loadIndex bytes ∧ s.status.busy = false ∧ s.params.ibufDepth < bytes.length

/-- The two outputs agree on every byte outside slot `i` (20_memory.md R66). -/
def SameOutside (i : Nat) (before after : Memory) : Prop :=
  ∀ a, a < 4 * i ∨ 4 * i + 4 ≤ a → after.read? a = before.read? a

end Sys2Proof.Machine
end

