-- ==== Sys2Proof/Certificates/Slice0/Obligations.lean ====
section
/-! DEFINITION. The statements about the block, each from a rule of spec/. A statement that rests on a choice of the
model's says so and names its log entry under notes/assumptions/. -/

open Sys2Proof Sys2Proof.Machine

/-! ### Encoding (30_encoding.md) -/

/-- Words written out bit by bit from the formats `LLLLAABB` and `IIIIIIII` decode to the operations they stand for
(R92, R93; 95_test_vectors.md section 2). -/
def Obligations.SampleIndexBytesDecode : Prop :=
  decode .yiq [0b01010000] = .ok (.yiqPix 5 0 0, []) ∧ decode .yiq [0b11111111] = .ok (.yiqPix 15 3 3, []) ∧
  decode .yiq [0b01110110] = .ok (.yiqPix 7 1 2, []) ∧ decode .yiq [0b10011011, 0b00000001] =
    .ok (.yiqPix 9 2 3, [0b00000001]) ∧ decode .pal [0b10000000] = .ok (.palPix 128, []) ∧
  decode .pal [0b11111111] = .ok (.palPix 255, [])

/-- R95: in mode `YIQ` every byte is `YIQ.PIX` of `b[7:4]`, `b[3:2]`, `b[1:0]`, in mode `PAL` every byte is `PAL.PIX`
of `b[7:0]`, and the host commands have no bit encoding. -/
def Obligations.EveryByteDecodesInBothModes : Prop :=
  (∀ (b : Byte) (rest : List Byte),
    decode .yiq (b :: rest) =
      .ok (.yiqPix (BitVec.ofNat 4 (b.toNat / 16)) (BitVec.ofNat 2 (b.toNat / 4)) (BitVec.ofNat 2 b.toNat), rest) ∧
    decode .pal (b :: rest) = .ok (.palPix b, rest)) ∧
  (∀ i : Instr, i.isHostCommand = true → encode i = none)

/-- R99, R100: a mode other than `YIQ` and `PAL` decodes nothing, by name, and there is nothing to decode in an empty
stream. -/
def Obligations.OtherModesAndEmptyStreamsAreRejected : Prop :=
  (∀ (code : Nat) (b : Byte) (rest : List Byte), decode (.other code) (b :: rest) = .error (.noDecoder code)) ∧
  (∀ mode : Format, decode mode [] = .error .noByte)

/-- R92 "Inverse": encoding the operation a byte decodes to gives the byte back, in either mode. -/
def Obligations.EncodeInvertsDecode : Prop :=
  ∀ (mode : Format) (b : Byte) (i : Instr), decodeByte mode b = .ok i → encode i = some b ∧ i.mode = some mode

/-- Decode and encode agree on whole index streams (R91, R92, R93): the bytes of any list of operations of one mode
decode to that list, one byte an operation. -/
def Obligations.DecodeStreamInvertsEncodeStream : Prop :=
  ∀ (mode : Format) (is : List Instr), (∀ i ∈ is, i.mode = some mode) →
    ∃ bytes, encodeStream is = some bytes ∧ bytes.length = is.length ∧ decodeStream mode bytes = .ok is

/-- R100: with two distinct format numbers, the number of a format of the instance stands for that format, and every
number other than the two is `OTHER`. -/
def Obligations.FormatNumbersRoundTrip : Prop :=
  ∀ p : Config.Params, p.wf →
    (∀ f : Format, f.wf p = true → formatOfCode p.fmtYiq p.fmtPal (formatCode p.fmtYiq p.fmtPal f) = f) ∧
    (∀ n, n ≠ p.fmtYiq → n ≠ p.fmtPal → formatOfCode p.fmtYiq p.fmtPal n = .other n)

/-! ### The YIQ datapath (40_yiq_decoder.md) -/

/-- R123: the clamp is 0 below 0, 255 above 255 and the number itself between. -/
def Obligations.ClampSaturates : Prop :=
  ∀ z : Int, Saturates z (clamp255 z)

/-- R122: the sum of a channel is the exact sum of its three entries, and with entries of `TBL_W` bits it lies between
`-3 * 2^(TBL_W-1)` and `3 * (2^(TBL_W-1) - 1)`, so a signed number of `TBL_W + 2` bits holds it. -/
def Obligations.ChannelSumIsExactAndBounded : Prop :=
  ∀ (w : Nat) (t : YiqBank) (l : BitVec 4) (a b : BitVec 2) (c : Channel), 2 ≤ w → t.fits w = true →
    channelSum t l a b c =
      t.luma[l.toNat]'l.isLt + (t.chromaA[a.toNat]'a.isLt).entry c + (t.chromaB[b.toNat]'b.isLt).entry c ∧
    -3 * 2 ^ (w - 1) ≤ channelSum t l a b c ∧ channelSum t l a b c ≤ 3 * (2 ^ (w - 1) - 1) ∧
    fitsWidth (w + 2) (channelSum t l a b c) = true

/-- R97, R122, R123: with a YIQ table loaded, `YIQ.PIX` completes, and the word in the slot at `IDX_PTR` has the
saturated sum of each channel in its place and alpha `0xFF`; the slot's bytes in stream order are R, G, B, `0xFF`. -/
def Obligations.YiqPixWritesSaturatedChannelSums : Prop :=
  ∀ (l : BitVec 4) (a b : BitVec 2) (s : State) (bank : YiqBank),
    s.table = .yiq bank → s.idxPtr < s.params.ibufDepth →
    ∃ t w, exec (.yiqPix l a b) s = .next t ∧ t.obuf.readSlot? s.idxPtr = some w ∧
      Saturates (bank.luma[l.toNat]'l.isLt + (bank.chromaA[a.toNat]'a.isLt).r + (bank.chromaB[b.toNat]'b.isLt).r)
        (w.extractLsb' 0 8) ∧
      Saturates (bank.luma[l.toNat]'l.isLt + (bank.chromaA[a.toNat]'a.isLt).g + (bank.chromaB[b.toNat]'b.isLt).g)
        (w.extractLsb' 8 8) ∧
      Saturates (bank.luma[l.toNat]'l.isLt + (bank.chromaA[a.toNat]'a.isLt).b + (bank.chromaB[b.toNat]'b.isLt).b)
        (w.extractLsb' 16 8) ∧
      w.extractLsb' 24 8 = 0xFF ∧
      (∀ k < 4, t.obuf.read? (4 * s.idxPtr + k) = some (w.extractLsb' (8 * k) 8)) ∧
      t = { s with obuf := t.obuf } ∧ SameOutside s.idxPtr s.obuf t.obuf

/-- R128: the pixel `YIQ.PIX` writes depends on the index byte and on the seven table entries it selects, and on
nothing else: two states that agree on those, whatever else differs, get the same word, each in its own slot. -/
def Obligations.YiqPixDependsOnlyOnSelectedEntries : Prop :=
  ∀ (l : BitVec 4) (a b : BitVec 2) (s1 s2 t1 t2 : State) (bank1 bank2 : YiqBank),
    s1.table = .yiq bank1 → s2.table = .yiq bank2 →
    bank1.luma[l.toNat]'l.isLt = bank2.luma[l.toNat]'l.isLt →
    bank1.chromaA[a.toNat]'a.isLt = bank2.chromaA[a.toNat]'a.isLt →
    bank1.chromaB[b.toNat]'b.isLt = bank2.chromaB[b.toNat]'b.isLt →
    exec (.yiqPix l a b) s1 = .next t1 → exec (.yiqPix l a b) s2 = .next t2 →
    ∃ w, t1.obuf.readSlot? s1.idxPtr = some w ∧ t2.obuf.readSlot? s2.idxPtr = some w

/-! ### The palette engine (41_palette_decoder.md) -/

/-- R98, R141, R142: with a PAL table loaded, `PAL.PIX` completes and the bytes at stream positions `4i .. 4i+3` are
`e[7:0]`, `e[15:8]`, `e[23:16]`, `0xFF` of the entry the index selects; the slot is `0xFF000000 | e[23:0]`. -/
def Obligations.PalPixWritesEntryBytes : Prop :=
  ∀ (i : BitVec 8) (s : State) (bank : PalBank), s.table = .pal bank → s.idxPtr < s.params.ibufDepth →
    ∃ t, exec (.palPix i) s = .next t ∧
      t.obuf.read? (4 * s.idxPtr) = some ((bank[i.toNat]'i.isLt).extractLsb' 0 8) ∧
      t.obuf.read? (4 * s.idxPtr + 1) = some ((bank[i.toNat]'i.isLt).extractLsb' 8 8) ∧
      t.obuf.read? (4 * s.idxPtr + 2) = some ((bank[i.toNat]'i.isLt).extractLsb' 16 8) ∧
      t.obuf.read? (4 * s.idxPtr + 3) = some 0xFF ∧
      t.obuf.readSlot? s.idxPtr = some (0xFF000000#32 ||| (bank[i.toNat]'i.isLt &&& 0x00FFFFFF#32)) ∧
      t = { s with obuf := t.obuf } ∧ SameOutside s.idxPtr s.obuf t.obuf

/-- R145, and R96 "Bits 31:24 are read by no rule": the pixel `PAL.PIX` writes depends on the low 24 bits of the
entry it selects and on nothing else. -/
def Obligations.PalPixDependsOnlyOnLowEntryBits : Prop :=
  ∀ (i : BitVec 8) (s1 s2 t1 t2 : State) (bank1 bank2 : PalBank),
    s1.table = .pal bank1 → s2.table = .pal bank2 →
    (bank1[i.toNat]'i.isLt).extractLsb' 0 24 = (bank2[i.toNat]'i.isLt).extractLsb' 0 24 →
    exec (.palPix i) s1 = .next t1 → exec (.palPix i) s2 = .next t2 →
    ∃ w, t1.obuf.readSlot? s1.idxPtr = some w ∧ t2.obuf.readSlot? s2.idxPtr = some w

/-- R127, R143: whatever table is loaded, or none, both pixel operations complete at a slot of the output buffer and
the pixel's top byte, its fourth in stream order, is `0xFF`. That they complete with the table of their kind not
loaded, on free entries, is the model's (notes/assumptions/5.md). -/
def Obligations.EveryPixelIsOpaque : Prop :=
  ∀ (i : Instr) (s : State), i.isHostCommand = false → s.idxPtr < s.params.ibufDepth →
    ∃ t w, exec i s = .next t ∧ t.obuf.readSlot? s.idxPtr = some w ∧ w.extractLsb' 24 8 = 0xFF ∧
      t.obuf.read? (4 * s.idxPtr + 3) = some 0xFF

/-- R129, R145: a pixel operation has no effect but the write of its own slot: every other field is unchanged (the
model's count of draws moves only when the table of the operation's kind is not loaded, notes/assumptions/5.md), and
every byte outside the slot at `IDX_PTR` reads as before. -/
def Obligations.PixelOperationsChangeOnlyTheirSlot : Prop :=
  ∀ (i : Instr) (s t : State), i.isHostCommand = false → exec i s = .next t →
    t = { s with obuf := t.obuf, draws := t.draws } ∧ SameOutside s.idxPtr s.obuf t.obuf ∧
      (i.mode.bind Format.tableKind = some s.table.kind → t.draws = s.draws)

/-- 20_memory.md R60: `OBUF` has no slot at or above `IBUF_DEPTH`, so a pixel operation there stops by name
(notes/assumptions/12.md). -/
def Obligations.PixelOperationOutsideBufferFaults : Prop :=
  ∀ (i : Instr) (s : State), i.isHostCommand = false → s.params.ibufDepth ≤ s.idxPtr → exec i s = .fault .obufOutOfRange

/-! ### The output buffer and its two views (20_memory.md R66, R67) -/

/-- R66: byte `k` of slot `i` is bits `8k+7:8k` of the slot, and the slot is its four bytes, least significant
first. -/
def Obligations.SlotsAndBytesAreOneStorage : Prop :=
  ∀ (m : Memory) (i : Nat) (v : Word),
    m.readSlot? i = some v ↔ ∀ k < 4, m.read? (4 * i + k) = some (v.extractLsb' (8 * k) 8)

/-- R67: while idle, a host that reads the slot `OBUF[i]` and one that reads the byte `OSTREAM[4i+k]` of a slot that
has been written get values related by R66. -/
def Obligations.SlotAndByteReadsAgree : Prop :=
  ∀ (s : State) (i k : Nat) (v : Word), s.status.busy = false → i < s.params.ibufDepth → k < 4 →
    s.obuf.readSlot? i = some v →
    exec (.read (.obuf i)) s = .next { s with reply := some (.word v) } ∧
    exec (.read (.ostream (4 * i + k))) s = .next { s with reply := some (.byte (v.extractLsb' (8 * k) 8)) }

/-! ### Loading (42_sequencer_and_host.md R160 to R164) -/

/-- R160: an idle `LOAD_TABLE_YIQ` with entries of `TBL_W` bits completes: the YIQ bank is the operands, `TBL.KIND` is
`YIQ`, and nothing else changes. -/
def Obligations.LoadTableYiqReplacesTheStore : Prop :=
  ∀ (luma : Vector Int 16) (chromaA chromaB : Vector ChromaRow 4) (s : State), s.status.busy = false →
    (Instr.loadTableYiq luma chromaA chromaB).wf s.params = true →
    ∃ t, exec (.loadTableYiq luma chromaA chromaB) s = .next t ∧ t.table.kind = .yiq ∧
      (∀ bank, t.table = .yiq bank → bank.luma = luma ∧ bank.chromaA = chromaA ∧ bank.chromaB = chromaB) ∧
      t = { s with table := t.table }

/-- R161: an idle `LOAD_TABLE_PAL` completes: the PAL bank is the operand, `TBL.KIND` is `PAL`, and nothing else
changes. -/
def Obligations.LoadTablePalReplacesTheStore : Prop :=
  ∀ (entries : Vector Word 256) (s : State), s.status.busy = false →
    ∃ t, exec (.loadTablePal entries) s = .next t ∧ t.table.kind = .pal ∧
      (∀ bank, t.table = .pal bank → bank = entries) ∧ t = { s with table := t.table }

/-- The model's reading of R160 "The operand types" (notes/assumptions/2.md): an operand that is no signed
`TBL_W`-bit number is no command of the interface and is refused by name. -/
def Obligations.LoadTableYiqRefusesWideEntries : Prop :=
  ∀ (luma : Vector Int 16) (chromaA chromaB : Vector ChromaRow 4) (s : State),
    (Instr.loadTableYiq luma chromaA chromaB).wf s.params = false →
    exec (.loadTableYiq luma chromaA chromaB) s = .refused .operandTooWide

/-- R162: an idle `LOAD_INDEX` of at most `IBUF_DEPTH` bytes completes: `IBUF[i]` is byte `i` for every `i` below the
length, nothing is left above it, `IBUF_LEN` is the length, and nothing else changes. -/
def Obligations.LoadIndexReplacesTheBuffer : Prop :=
  ∀ (bytes : List Byte) (s : State), s.status.busy = false → bytes.length ≤ s.params.ibufDepth →
    ∃ t, exec (.loadIndex bytes) s = .next t ∧ t.ibufLen = bytes.length ∧ (∀ i, t.ibuf.read? i = bytes[i]?) ∧
      Memory.wf t.ibuf ∧ t = { s with ibuf := t.ibuf, ibufLen := t.ibufLen }

/-- R164: an idle `LOAD_INDEX` of more than `IBUF_DEPTH` bytes changes no state except `STATUS.HOSTERR <- 1`. -/
def Obligations.LoadIndexTooLongIsDropped : Prop :=
  ∀ (bytes : List Byte) (s : State), s.status.busy = false → s.params.ibufDepth < bytes.length →
    exec (.loadIndex bytes) s = .next { s with status := { s.status with hosterr := true } }

/-- R163: while busy, `LOAD_TABLE_YIQ`, `LOAD_TABLE_PAL`, `LOAD_INDEX`, `START` and `CLEAR` change no state except
`STATUS.HOSTERR <- 1`; `RESET` and reads are not refused. -/
def Obligations.BusyCommandsAreDropped : Prop :=
  ∀ s : State, s.status.busy = true →
    (∀ c : Instr, droppedWhenBusy c = true → c.wf s.params = true →
      exec c s = .next { s with status := { s.status with hosterr := true } }) ∧
    (∃ t, exec .reset s = .next t ∧ t.status.busy = false ∧ t.status.hosterr = false) ∧
    (∀ name : ReadName, name.wf s.params = true →
      ∃ t, exec (.read name) s = .next t ∧ t.status = s.status ∧ t.reply.isSome = true)

/-! ### Starting a run (42_sequencer_and_host.md R166 to R169, 60_exceptions.md R200 to R206) -/

/-- R24, R166: an idle `START` completes whatever its operands: the five header registers are the operands, accepted
or not, and neither `HOSTERR` nor any storage changes. -/
def Obligations.StartLatchesTheHeader : Prop :=
  ∀ (width height : Word) (format : Format) (smallLod largeLod : Word) (s : State), s.status.busy = false →
    ∃ t, exec (.start width height format smallLod largeLod) s = .next t ∧
      t.hdr = ⟨width, height, format, smallLod, largeLod⟩ ∧ t.hdrWritten = true ∧
      t.status.hosterr = s.status.hosterr ∧
      t = { s with hdr := t.hdr, hdrWritten := t.hdrWritten, status := t.status, idxPtr := t.idxPtr }

/-- R202, R204: `START` with `format = OTHER(code)` records `BadFormat` and starts no run. -/
def Obligations.StartOtherFormatIsBadFormat : Prop :=
  ∀ (width height : Word) (code : Nat) (smallLod largeLod : Word) (s : State), s.status.busy = false →
    exec (.start width height (.other code) smallLod largeLod) s = .next { s with
      hdr := ⟨width, height, .other code, smallLod, largeLod⟩, hdrWritten := true
      status := { busy := false, done := false, err := .badFormat, hosterr := s.status.hosterr } }

/-- R203, R204: `START` with `format = YIQ` while `TBL.KIND` is not `YIQ`, or `PAL` while it is not `PAL`, records
`TableMismatch` and starts no run. -/
def Obligations.StartWrongTableIsTableMismatch : Prop :=
  ∀ (width height : Word) (smallLod largeLod : Word) (s : State), s.status.busy = false →
    (s.table.kind ≠ .yiq → exec (.start width height .yiq smallLod largeLod) s = .next { s with
      hdr := ⟨width, height, .yiq, smallLod, largeLod⟩, hdrWritten := true
      status := { busy := false, done := false, err := .tableMismatch, hosterr := s.status.hosterr } }) ∧
    (s.table.kind ≠ .pal → exec (.start width height .pal smallLod largeLod) s = .next { s with
      hdr := ⟨width, height, .pal, smallLod, largeLod⟩, hdrWritten := true
      status := { busy := false, done := false, err := .tableMismatch, hosterr := s.status.hosterr } })

/-- R201, R25: with the table of the format loaded, `START` records `InvalidLength` and starts no run exactly when the
exact product `width * height` is larger than `IBUF_LEN`; equality is not an error. -/
def Obligations.StartTooLongIsInvalidLength : Prop :=
  ∀ (width height : Word) (format : Format) (smallLod largeLod : Word) (s : State), s.status.busy = false →
    Format.tableKind format = some s.table.kind →
    (s.ibufLen < width.toNat * height.toNat → exec (.start width height format smallLod largeLod) s = .next { s with
      hdr := ⟨width, height, format, smallLod, largeLod⟩, hdrWritten := true
      status := { busy := false, done := false, err := .invalidLength, hosterr := s.status.hosterr } }) ∧
    (width.toNat * height.toNat ≤ s.ibufLen →
      ∃ t, exec (.start width height format smallLod largeLod) s = .next t ∧ t.status.err = .noError)

/-- R168, R169: `START` with the table of the format loaded and `width * height <= IBUF_LEN` is accepted: with at
least one pixel it sets `IDX_PTR <- 0` and `BUSY <- 1`, with none it sets `IDX_PTR <- 0` and `DONE <- 1`, and does
nothing else but latch the header and clear the outcome of the run before. -/
def Obligations.AcceptedStartBeginsOrEndsTheRun : Prop :=
  ∀ (width height : Word) (format : Format) (smallLod largeLod : Word) (s : State), s.status.busy = false →
    Format.tableKind format = some s.table.kind → width.toNat * height.toNat ≤ s.ibufLen →
    (0 < width.toNat * height.toNat → exec (.start width height format smallLod largeLod) s = .next { s with
      idxPtr := 0, hdr := ⟨width, height, format, smallLod, largeLod⟩, hdrWritten := true
      status := { busy := true, done := false, err := .noError, hosterr := s.status.hosterr } }) ∧
    (width.toNat * height.toNat = 0 → exec (.start width height format smallLod largeLod) s = .next { s with
      idxPtr := 0, hdr := ⟨width, height, format, smallLod, largeLod⟩, hdrWritten := true
      status := { busy := false, done := true, err := .noError, hosterr := s.status.hosterr } })

/-- R167, R206: the code an idle `START` records is that of the first check that fails, in the order format, table,
length, and a `START` is accepted exactly when none does. -/
def Obligations.StartReportsTheFirstFailingCheck : Prop :=
  ∀ (width height : Word) (format : Format) (smallLod largeLod : Word) (s t : State), s.status.busy = false →
    exec (.start width height format smallLod largeLod) s = .next t →
    (t.status.err = .badFormat ↔ Format.tableKind format = none) ∧
    (t.status.err = .tableMismatch ↔ ∃ k, Format.tableKind format = some k ∧ s.table.kind ≠ k) ∧
    (t.status.err = .invalidLength ↔
      Format.tableKind format = some s.table.kind ∧ s.ibufLen < width.toNat * height.toNat) ∧
    (t.status.busy = true ∨ t.status.done = true ↔ t.status.err = .noError) ∧
    (t.status.err ≠ .noError → t.idxPtr = s.idxPtr ∧ t.obuf = s.obuf)

/-! ### Clearing, reading, resetting (R174, R175, R240) -/

/-- R174: an idle `CLEAR` sets `DONE`, `ERR` and `HOSTERR` to 0 and changes nothing else; a busy one is dropped; and
no command but an idle `CLEAR` and `RESET` clears `HOSTERR`. -/
def Obligations.ClearClearsTheFlags : Prop :=
  (∀ s : State, s.status.busy = false →
    exec .clear s = .next { s with status := { busy := false, done := false, err := .noError, hosterr := false } }) ∧
  (∀ s : State, s.status.busy = true →
    exec .clear s = .next { s with status := { s.status with hosterr := true } }) ∧
  (∀ (i : Instr) (s t : State), exec i s = .next t → s.status.hosterr = true → t.status.hosterr = false →
    (i = .clear ∧ s.status.busy = false) ∨ i = .reset)

/-- R70, R175: a `READ` that answers changes nothing but the value handed to the host and the model's own count of
draws (notes/assumptions/4.md, 10.md). -/
def Obligations.ReadChangesNoState : Prop :=
  ∀ (name : ReadName) (s t : State), exec (.read name) s = .next t →
    t = { s with reply := t.reply, draws := t.draws } ∧ t.reply.isSome = true

/-- R175: a `READ` completes, busy or idle, for every name in range, and one out of range is refused by name. -/
def Obligations.ReadCompletesExactlyInRange : Prop :=
  ∀ (name : ReadName) (s : State),
    (name.wf s.params = true → ∃ t, exec (.read name) s = .next t) ∧
    (name.wf s.params = false → exec (.read name) s = .refused .readOutOfRange)

/-- R22, R175: `READ STATUS` returns `BUSY` in bit 0, `DONE` in bit 1, `ERR` in bits 3:2, `HOSTERR` in bit 4 and 0 in
bits 31:5. -/
def Obligations.ReadStatusLayout : Prop :=
  ∀ s : State, ∃ w, exec (.read .status) s = .next { s with reply := some (.word w) } ∧
    w.getLsbD 0 = s.status.busy ∧ w.getLsbD 1 = s.status.done ∧
    w.extractLsb' 2 2 = (match s.status.err with
      | .noError => 0#2
      | .invalidLength => 1#2
      | .badFormat => 2#2
      | .tableMismatch => 3#2) ∧
    w.getLsbD 4 = s.status.hosterr ∧ w.extractLsb' 5 27 = 0#27

/-- R175: reads of `IDX_PTR`, `IBUF_LEN` and `TBL.KIND` return the current values, busy or idle. -/
def Obligations.ReadRegistersReturnsCurrentValues : Prop :=
  ∀ s : State,
    exec (.read .idxPtr) s = .next { s with reply := some (.count s.idxPtr) } ∧
    exec (.read .ibufLen) s = .next { s with reply := some (.count s.ibufLen) } ∧
    exec (.read .tblKind) s = .next { s with reply := some (.kind s.table.kind) }

/-- R175: reads of the header registers return the values the last `START` wrote. -/
def Obligations.ReadHeaderReturnsTheLastStart : Prop :=
  ∀ s : State, s.hdrWritten = true →
    exec (.read .hdrWidth) s = .next { s with reply := some (.word s.hdr.width) } ∧
    exec (.read .hdrHeight) s = .next { s with reply := some (.word s.hdr.height) } ∧
    exec (.read .hdrFormat) s = .next { s with reply := some (.format s.hdr.format) } ∧
    exec (.read .hdrSmallLod) s = .next { s with reply := some (.signed s.hdr.smallLod) } ∧
    exec (.read .hdrLargeLod) s = .next { s with reply := some (.signed s.hdr.largeLod) }

/-- R41, R175, R79: a read of a header register that no `START` since reset has written, of a slot never written, or
of any slot or byte while busy, returns a free value, a fresh draw that depends on nothing but the model's count of
draws (notes/assumptions/4.md). That a slot of which only some bytes are written, which no run leaves, reads the same
way is the model's choice (notes/assumptions/6.md). -/
def Obligations.UnspecifiedReadsAreFreshDraws : Prop :=
  ∀ s : State,
    (s.hdrWritten = false →
      exec (.read .hdrWidth) s =
        .next { s with reply := some (.word (Config.freeWord s.draws)), draws := s.draws + 1 } ∧
      exec (.read .hdrHeight) s =
        .next { s with reply := some (.word (Config.freeWord s.draws)), draws := s.draws + 1 } ∧
      exec (.read .hdrFormat) s = .next { s with
        reply := some (.format (formatOfCode s.params.fmtYiq s.params.fmtPal (Config.freeFormatCode s.draws)))
        draws := s.draws + 1 } ∧
      exec (.read .hdrSmallLod) s =
        .next { s with reply := some (.signed (Config.freeWord s.draws)), draws := s.draws + 1 } ∧
      exec (.read .hdrLargeLod) s =
        .next { s with reply := some (.signed (Config.freeWord s.draws)), draws := s.draws + 1 }) ∧
    (∀ i, i < s.params.ibufDepth → (s.status.busy = true ∨ s.obuf.readSlot? i = none) →
      exec (.read (.obuf i)) s =
        .next { s with reply := some (.word (Config.freeWord s.draws)), draws := s.draws + 1 }) ∧
    (∀ j, j < 4 * s.params.ibufDepth → (s.status.busy = true ∨ s.obuf.readSlot? (j / 4) = none) →
      exec (.read (.ostream j)) s =
        .next { s with reply := some (.byte (Config.freeByte s.draws)), draws := s.draws + 1 })

/-- R240, R242: `RESET` is accepted in every state and leaves `IDX_PTR`, the four `STATUS` fields and `IBUF_LEN` at 0,
`TBL.KIND` at `NONE`, and `HDR`, `IBUF` and `OBUF` holding nothing of what they held; the parameters and the host's
side are untouched (notes/assumptions/17.md). -/
def Obligations.ResetLeavesTheResetState : Prop :=
  ∀ s : State, ∃ t, exec .reset s = .next t ∧ t.idxPtr = 0 ∧ t.status.busy = false ∧ t.status.done = false ∧
    t.status.err = .noError ∧ t.status.hosterr = false ∧ t.table.kind = .none ∧ t.ibufLen = 0 ∧
    t.hdrWritten = false ∧ (∀ a, t.ibuf.read? a = none) ∧ (∀ a, t.obuf.read? a = none) ∧
    t.params = s.params ∧ t.draws = s.draws ∧ t.reply = s.reply ∧ t.agenda = s.agenda

/-- R41: the state after reset, for the values the spec gives. -/
def Obligations.ResetStateHoldsTheSpecifiedValues : Prop :=
  State.reset.idxPtr = 0 ∧ State.reset.status.busy = false ∧ State.reset.status.done = false ∧
  State.reset.status.err = .noError ∧ State.reset.status.hosterr = false ∧ State.reset.table.kind = .none ∧
  State.reset.ibufLen = 0 ∧ (∀ a, State.reset.ibuf.read? a = none) ∧ (∀ a, State.reset.obuf.read? a = none)

/-! ### The step (42_sequencer_and_host.md R165, R170; 70_reset_and_hazards.md R241) -/

/-- R165, R170: on the sequencer's turn, when busy, the byte at `IDX_PTR` decodes under the mode to an operation, and
the step runs that operation and then advances `IDX_PTR`, ending the run at `PIXEL_COUNT`. Whose turn it is, is the
model's agenda (notes/assumptions/8.md). -/
def Obligations.StepRunsTheDecodedOperation : Prop :=
  ∀ (s : State) (b : Byte) (i : Instr), nextTurn s = .sequencer → s.status.busy = true →
    s.idxPtr < s.params.ibufDepth → s.ibuf.read? s.idxPtr = some b → decode s.hdr.format [b] = .ok (i, []) →
    step s =
      match exec i { s with agenda := s.agenda.tail } with
      | .next t => .next { t with
          idxPtr := t.idxPtr + 1
          status := if t.idxPtr + 1 = t.hdr.width.toNat * t.hdr.height.toNat then
              { t.status with busy := false, done := true }
            else t.status }
      | .fault r => .fault r
      | .refused r => .refused r

/-- R77, R177: on a host's turn the step is the host's command, with the turn taken from the model's agenda
(notes/assumptions/8.md); a pixel operation is no host command and is refused by name (notes/assumptions/11.md). -/
def Obligations.StepRunsTheHostCommand : Prop :=
  ∀ (s : State) (c : Instr), nextTurn s = .host c →
    (c.isHostCommand = true → step s = exec c { s with agenda := s.agenda.tail }) ∧
    (c.isHostCommand = false → step s = .refused .notAHostCommand)

/-- R241: when idle and no host acts, nothing happens. That the machine then goes on, unchanged, is the model's
(notes/assumptions/9.md). -/
def Obligations.IdleSequencerTurnChangesNothing : Prop :=
  ∀ s : State, nextTurn s = .sequencer → s.status.busy = false → step s = .next { s with agenda := s.agenda.tail }

/-- R165: during a run the fetch is `IBUF[IDX_PTR]`, in range, a byte that `LOAD_INDEX` wrote, with no side effect. -/
def Obligations.FetchReadsALoadedByte : Prop :=
  ∀ s : State, Inv s → s.status.busy = true →
    ∃ b, fetchByte s = .next (b, s) ∧ s.ibuf.read? s.idxPtr = some b ∧ s.idxPtr < s.ibufLen

/-- R170: the pixel step of a run cannot fault: it writes the pixel that the loaded table gives for the byte at
`IDX_PTR` into `OBUF[IDX_PTR]`, advances `IDX_PTR` by 1, sets `BUSY` to 0 and `DONE` to 1 exactly at `PIXEL_COUNT`, and
changes nothing else but the model's agenda, whose turn it takes (notes/assumptions/8.md). -/
def Obligations.PixelStepDecodesAndAdvances : Prop :=
  ∀ s : State, Inv s → s.status.busy = true → nextTurn s = .sequencer →
    ∃ t b w, step s = .next t ∧ s.ibuf.read? s.idxPtr = some b ∧ pixelOf s.table b = some w ∧
      t.obuf.readSlot? s.idxPtr = some w ∧ SameOutside s.idxPtr s.obuf t.obuf ∧ t.idxPtr = s.idxPtr + 1 ∧
      (t.idxPtr = s.hdr.pixelCount → t.status = { s.status with busy := false, done := true }) ∧
      (t.idxPtr ≠ s.hdr.pixelCount → t.status = s.status) ∧
      t = { s with obuf := t.obuf, idxPtr := t.idxPtr, status := t.status, agenda := s.agenda.tail }

/-- 20_memory.md R60 and R170 outside what a run reaches: a pixel step at an index at or above `IBUF_DEPTH` stops by
name, and one in a mode with no decoder is refused by name (notes/assumptions/12.md, 13.md). Whose turn it is, is the
model's agenda (notes/assumptions/8.md). -/
def Obligations.PixelStepStopsByNameOutsideARun : Prop :=
  ∀ s : State, nextTurn s = .sequencer → s.status.busy = true →
    (s.params.ibufDepth ≤ s.idxPtr → step s = .fault .ibufOutOfRange) ∧
    (∀ code, s.idxPtr < s.params.ibufDepth → s.hdr.format = .other code → step s = .refused (.noDecoder code))

/-- How a table word comes to run (notes/assumptions/16.md): from every state whose instance has a buffer, the step
after `withFetchWord` of an 8-bit word is that of the operation the decoder gives for it. -/
def Obligations.FetchWordIsWhatRunsNext : Prop :=
  ∀ (s : State) (w : Nat) (i : Instr), 1 ≤ s.params.ibufDepth → decodeTableWord 8 w = some i →
    ∃ t, exec i (afterTurn (s.withFetchWord 8 w)) = .next t ∧ step (s.withFetchWord 8 w) = .next (finishPixel t)

/-! ### Invariants and whole-machine rules -/

/-- The invariant holds after reset, for every instance with well-formed parameters, and for the one
`State.reset` is. -/
def Obligations.ResetStateMeetsTheInvariant : Prop :=
  (∀ p : Config.Params, p.wf → Inv (State.resetWith p)) ∧ Inv State.reset

/-- Every step keeps the invariant: the flags legal (R22), `IDX_PTR` and `IBUF_LEN` in range (R21, R35), the buffers
in canonical form and in range (R34, R74), slots whole (R67), table entries within `TBL_W` bits (R28 to R30), and
during a run the header, table and length that `START` checked (R167). -/
def Obligations.EveryStepKeepsTheInvariant : Prop :=
  ∀ s t : State, Inv s → step s = .next t → Inv t

/-- R170, R171: every step keeps the loop invariant of a run, that the slots below `IDX_PTR` hold the pixels of the
bytes below `IDX_PTR`. -/
def Obligations.EveryStepKeepsTheDecodedPixels : Prop :=
  ∀ s t : State, Inv s → RunDecoded s → step s = .next t → RunDecoded t

/-- R78, R171: the step that ends a run publishes it: every slot below `PIXEL_COUNT` holds its pixel. Whose turn it
is, is the model's agenda (notes/assumptions/8.md). -/
def Obligations.EndOfRunPublishesThePixels : Prop :=
  ∀ s t : State, Inv s → RunDecoded s → nextTurn s = .sequencer → s.status.busy = true → step s = .next t →
    t.status.busy = false →
    t.status.done = true ∧ t.idxPtr = t.hdr.pixelCount ∧ DecodedUpTo t.table t.ibuf t.obuf t.hdr.pixelCount

/-- R170, R177: in every state of the invariant, a step with an orderly turn to take (notes/assumptions/8.md) answers a
next state: the block never stops. That it does so on the sequencer's turn of an idle block too, where R241 says only
that nothing happens, is the model's choice (notes/assumptions/9.md). -/
def Obligations.OrderlyStepsNeverStop : Prop :=
  ∀ s : State, Inv s → (nextTurn s).Orderly s.params → ∃ t, step s = .next t

/-- R21, R176: `IDX_PTR` changes only by becoming 0 at a `START` issued when idle that is accepted, or at `RESET`, and
by 1 at a pixel step. Whose turn it is, is the model's agenda (notes/assumptions/8.md). -/
def Obligations.IdxPtrMovesOnlyByStartResetAndPixelStep : Prop :=
  ∀ s t : State, step s = .next t →
    t.idxPtr = s.idxPtr ∨
    (nextTurn s = .sequencer ∧ s.status.busy = true ∧ t.idxPtr = s.idxPtr + 1) ∨
    (nextTurn s = .host .reset ∧ t.idxPtr = 0) ∨
    (∃ width height format smallLod largeLod, nextTurn s = .host (.start width height format smallLod largeLod) ∧
      s.status.busy = false ∧ t.status.err = .noError ∧ t.idxPtr = 0)

/-- R33, R77, R82: while busy, no step but `RESET` changes the table store, the index buffer, its length or the
header. Whose turn it is, is the model's agenda (notes/assumptions/8.md). -/
def Obligations.InputsCannotChangeDuringARun : Prop :=
  ∀ s t : State, s.status.busy = true → nextTurn s ≠ .host .reset → step s = .next t →
    t.table = s.table ∧ t.ibuf = s.ibuf ∧ t.ibufLen = s.ibufLen ∧ t.hdr = s.hdr ∧ t.hdrWritten = s.hdrWritten

/-- R36, R61: a byte of the output changes only at a pixel step, in the slot at `IDX_PTR`, or at `RESET`. Whose turn it
is, is the model's agenda (notes/assumptions/8.md). -/
def Obligations.OutputIsWrittenOnlyByPixelSteps : Prop :=
  ∀ (s t : State) (a : Nat), step s = .next t → t.obuf.read? a ≠ s.obuf.read? a →
    (nextTurn s = .sequencer ∧ s.status.busy = true ∧ a / 4 = s.idxPtr) ∨ nextTurn s = .host .reset

/-- R207: after a host command, `HOSTERR` is 1 exactly when the command was dropped, or it was 1 before and the
command is neither an idle `CLEAR` nor `RESET`. -/
def Obligations.HosterrIsStickyAndMarksDrops : Prop :=
  ∀ (c : Instr) (s t : State), c.isHostCommand = true → exec c s = .next t →
    (t.status.hosterr = true ↔ Dropped c s ∨
      (s.status.hosterr = true ∧ ¬(c = .clear ∧ s.status.busy = false) ∧ c ≠ .reset))

/-- 00_scope.md R7: the parameters of an instance never change (notes/assumptions/1.md). -/
def Obligations.ParametersNeverChange : Prop :=
  ∀ s t : State, step s = .next t → t.params = s.params

/-! ### Whole runs -/

/-- R171, R172, R173: a run left to itself takes exactly `PIXEL_COUNT` pixel steps: after any fewer it is busy, and
after that many `DONE` is 1, `IDX_PTR = PIXEL_COUNT`, and every slot below `PIXEL_COUNT` holds the pixel the table
gives for its byte; the inputs are as they were, and no other slot has changed. That an empty agenda leaves every turn
to the sequencer is the model's choice (notes/assumptions/8.md). -/
def Obligations.RunDecodesEveryPixelInOrder : Prop :=
  ∀ s : State, Inv s → s.status.busy = true → s.idxPtr = 0 → s.agenda = [] →
    (∀ k < s.hdr.pixelCount, ∃ t, Sys2Proof.core.run k s = .next t ∧ t.status.busy = true ∧ t.idxPtr = k) ∧
    ∃ t, Sys2Proof.core.run s.hdr.pixelCount s = .next t ∧ t.status = { s.status with busy := false, done := true } ∧
      t.idxPtr = s.hdr.pixelCount ∧ DecodedUpTo s.table s.ibuf t.obuf s.hdr.pixelCount ∧
      (∀ i, s.hdr.pixelCount ≤ i → t.obuf.readSlot? i = s.obuf.readSlot? i) ∧
      t = { s with obuf := t.obuf, idxPtr := t.idxPtr, status := t.status }

/-- R172, R250: whatever orderly commands the host interleaves, short of `RESET`, a run reaches its end within as many
steps as the agenda has turns and the run has pixels left, with the same pixels as a run left to itself. The agenda is
the model's form of the interleaving and of fairness (notes/assumptions/8.md). -/
def Obligations.RunIsUndisturbedByTheHost : Prop :=
  ∀ s : State, Inv s → RunDecoded s → s.status.busy = true →
    (∀ u ∈ s.agenda, u.Orderly s.params ∧ u ≠ .host .reset) →
    ∃ k t, k ≤ s.agenda.length + (s.hdr.pixelCount - s.idxPtr) ∧ Sys2Proof.core.run k s = .next t ∧
      t.status.busy = false ∧ t.status.done = true ∧ t.idxPtr = s.hdr.pixelCount ∧ t.hdr = s.hdr ∧
      t.table = s.table ∧ t.ibuf = s.ibuf ∧ DecodedUpTo s.table s.ibuf t.obuf s.hdr.pixelCount

/-- R173, R247: a `START` accepted after a completed run, with nothing reloaded, repeats the run: the second run ends
with the same pixel in every slot below `PIXEL_COUNT`. The empty agenda, which leaves every turn to the sequencer, is
the model's choice (notes/assumptions/8.md); a run of no pixels ends at its `START` (AcceptedStartBeginsOrEndsTheRun). -/
def Obligations.RestartReproducesTheOutput : Prop :=
  ∀ (width height : Word) (format : Format) (smallLod largeLod : Word) (s : State), Inv s →
    s.status.busy = false → s.agenda = [] → Format.tableKind format = some s.table.kind →
    0 < width.toNat * height.toNat → width.toNat * height.toNat ≤ s.ibufLen →
    ∃ a1 t1 a2 t2, exec (.start width height format smallLod largeLod) s = .next a1 ∧
      Sys2Proof.core.run (width.toNat * height.toNat) a1 = .next t1 ∧ t1.status.done = true ∧
      exec (.start width height format smallLod largeLod) t1 = .next a2 ∧
      Sys2Proof.core.run (width.toNat * height.toNat) a2 = .next t2 ∧ t2.status.done = true ∧
      ∀ i < width.toNat * height.toNat, ∃ w, t1.obuf.readSlot? i = some w ∧ t2.obuf.readSlot? i = some w
end

