-- ==== Sys2Proof/Laws/Memory.lean ====
section
/-! SUPPORT. The laws of the byte memories: a read after a write, the canonical form, slots and their bytes. -/

namespace Sys2Proof.Machine

@[simp] theorem read?_nil (a : Nat) : Memory.read? [] a = none := rfl

theorem read?_write_same (m : Memory) (a : Nat) (v : Byte) : (m.write a v).read? a = some v := by
  induction m with
  | nil => simp [Memory.write, Memory.read?]
  | cons c m ih =>
    obtain ⟨k, w⟩ := c
    simp only [Memory.write]
    split
    · simp [Memory.read?]
    · split
      · simp [Memory.read?]
      · rename_i _ h
        simp [Memory.read?, Ne.symm h, ih]

theorem read?_write_other (m : Memory) {a b : Nat} (v : Byte) (h : b ≠ a) : (m.write a v).read? b = m.read? b := by
  induction m with
  | nil => simp [Memory.write, Memory.read?, h.symm]
  | cons c m ih =>
    obtain ⟨k, w⟩ := c
    simp only [Memory.write]
    split
    · simp [Memory.read?, h.symm]
    · split
      · rename_i _ h2
        subst h2
        simp [Memory.read?, h.symm]
      · simp [Memory.read?, ih]

@[simp] theorem read?_write (m : Memory) (a b : Nat) (v : Byte) :
    (m.write a v).read? b = if b = a then some v else m.read? b := by
  split
  · rename_i h; subst h; exact read?_write_same m b v
  · rename_i h; exact read?_write_other m v h

/-- The indices a write leaves listed: those listed before, and its own. -/
theorem mem_keys_write (m : Memory) (a : Nat) (v : Byte) (x : Nat) :
    x ∈ (m.write a v).map Prod.fst ↔ x = a ∨ x ∈ m.map Prod.fst := by
  induction m with
  | nil => simp [Memory.write]
  | cons c m ih =>
    obtain ⟨k, w⟩ := c
    simp only [Memory.write]
    split
    · simp
    · split
      · rename_i _ h; subst h; simp
      · simp only [List.map_cons, List.mem_cons, ih]; tauto

/-- A write keeps the canonical form. -/
theorem write_wf {m : Memory} (h : Memory.wf m) (a : Nat) (v : Byte) : Memory.wf (m.write a v) := by
  induction m with
  | nil => simp [Memory.write, Memory.wf]
  | cons c m ih =>
    obtain ⟨k, w⟩ := c
    simp only [Memory.wf, List.map_cons, List.pairwise_cons] at h
    obtain ⟨hk, hm⟩ := h
    simp only [Memory.write]
    split
    · rename_i hak
      simp only [Memory.wf, List.map_cons, List.pairwise_cons, List.mem_cons]
      refine ⟨?_, hk, hm⟩
      rintro x (rfl | hx)
      · exact hak
      · exact lt_trans hak (hk x hx)
    · split
      · rename_i _ hka
        subst hka
        simp only [Memory.wf, List.map_cons, List.pairwise_cons]
        exact ⟨hk, hm⟩
      · rename_i hak hka
        simp only [Memory.wf, List.map_cons, List.pairwise_cons]
        refine ⟨?_, ih hm⟩
        intro x hx
        rcases (mem_keys_write m a v x).1 hx with rfl | hx
        · omega
        · exact hk x hx

theorem writeSlot_wf {m : Memory} (h : Memory.wf m) (i : Nat) (v : Word) : Memory.wf (m.writeSlot i v) :=
  write_wf (write_wf (write_wf (write_wf h _ _) _ _) _ _) _ _

theorem mem_keys_writeSlot (m : Memory) (i : Nat) (v : Word) (x : Nat) :
    x ∈ (m.writeSlot i v).map Prod.fst ↔ (4 * i ≤ x ∧ x < 4 * i + 4) ∨ x ∈ m.map Prod.fst := by
  simp only [Memory.writeSlot, mem_keys_write]
  constructor
  · rintro (rfl | rfl | rfl | rfl | h)
    · left; omega
    · left; omega
    · left; omega
    · left; omega
    · exact .inr h
  · rintro (h | h)
    · have : x = 4 * i + 3 ∨ x = 4 * i + 2 ∨ x = 4 * i + 1 ∨ x = 4 * i := by omega
      tauto
    · tauto

/-- The bytes of a slot after it is written (20_memory.md R66). -/
theorem read?_writeSlot_in (m : Memory) (i k : Nat) (v : Word) (hk : k < 4) :
    (m.writeSlot i v).read? (4 * i + k) = some (slotByte v k) := by
  have h : k = 0 ∨ k = 1 ∨ k = 2 ∨ k = 3 := by omega
  rcases h with rfl | rfl | rfl | rfl <;> simp [Memory.writeSlot]

theorem read?_writeSlot_out (m : Memory) (i a : Nat) (v : Word) (h : a < 4 * i ∨ 4 * i + 4 ≤ a) :
    (m.writeSlot i v).read? a = m.read? a := by
  simp only [Memory.writeSlot, read?_write]
  rw [if_neg (by omega), if_neg (by omega), if_neg (by omega), if_neg (by omega)]

/-- A slot as a number (20_memory.md R66). -/
theorem slotOf_toNat (b0 b1 b2 b3 : Byte) :
    (slotOf b0 b1 b2 b3).toNat = b0.toNat + 2 ^ 8 * b1.toNat + 2 ^ 16 * b2.toNat + 2 ^ 24 * b3.toNat := by
  have h : (slotOf b0 b1 b2 b3).toNat = ((b3.toNat <<< 8 ||| b2.toNat) <<< 8 ||| b1.toNat) <<< 8 ||| b0.toNat := by
    rw [← BitVec.toNat_append b3 b2, ← BitVec.toNat_append _ b1, ← BitVec.toNat_append _ b0]; rfl
  rw [h, ← Nat.shiftLeft_add_eq_or_of_lt b2.isLt, ← Nat.shiftLeft_add_eq_or_of_lt b1.isLt,
    ← Nat.shiftLeft_add_eq_or_of_lt b0.isLt]
  simp only [Nat.shiftLeft_eq]
  omega

/-- A byte of a slot as a number (20_memory.md R66). -/
theorem slotByte_toNat (v : Word) (k : Nat) : (slotByte v k).toNat = v.toNat / 2 ^ (8 * k) % 2 ^ 8 := by
  simp [slotByte, BitVec.extractLsb'_toNat, Nat.shiftRight_eq_div_pow]

@[simp] theorem slotByte_slotOf_0 (b0 b1 b2 b3 : Byte) : slotByte (slotOf b0 b1 b2 b3) 0 = b0 := by
  apply BitVec.eq_of_toNat_eq
  rw [slotByte_toNat, slotOf_toNat]
  omega

@[simp] theorem slotByte_slotOf_1 (b0 b1 b2 b3 : Byte) : slotByte (slotOf b0 b1 b2 b3) 1 = b1 := by
  apply BitVec.eq_of_toNat_eq
  rw [slotByte_toNat, slotOf_toNat]
  omega

@[simp] theorem slotByte_slotOf_2 (b0 b1 b2 b3 : Byte) : slotByte (slotOf b0 b1 b2 b3) 2 = b2 := by
  apply BitVec.eq_of_toNat_eq
  rw [slotByte_toNat, slotOf_toNat]
  omega

@[simp] theorem slotByte_slotOf_3 (b0 b1 b2 b3 : Byte) : slotByte (slotOf b0 b1 b2 b3) 3 = b3 := by
  apply BitVec.eq_of_toNat_eq
  rw [slotByte_toNat, slotOf_toNat]
  omega

theorem slotOf_slotByte (v : Word) : slotOf (slotByte v 0) (slotByte v 1) (slotByte v 2) (slotByte v 3) = v := by
  apply BitVec.eq_of_toNat_eq
  rw [slotOf_toNat]
  simp only [slotByte_toNat]
  omega

/-- A slot that has been written has its four bytes, least significant first (20_memory.md R66). -/
theorem readSlot?_eq_some {m : Memory} {i : Nat} {v : Word} :
    m.readSlot? i = some v ↔ ∀ k < 4, m.read? (4 * i + k) = some (slotByte v k) := by
  constructor
  · intro h k hk
    have hk : k = 0 ∨ k = 1 ∨ k = 2 ∨ k = 3 := by omega
    simp only [Memory.readSlot?] at h
    split at h
    · rename_i b0 b1 b2 b3 h0 h1 h2 h3
      cases h
      rcases hk with rfl | rfl | rfl | rfl
      · simpa using h0
      · simpa using h1
      · simpa using h2
      · simpa using h3
    · cases h
  · intro h
    have h0 := h 0 (by decide)
    have h1 := h 1 (by decide)
    have h2 := h 2 (by decide)
    have h3 := h 3 (by decide)
    simp only [Nat.add_zero] at h0
    simp only [Memory.readSlot?, h0, h1, h2, h3, slotOf_slotByte]

@[simp] theorem readSlot?_writeSlot_same (m : Memory) (i : Nat) (v : Word) : (m.writeSlot i v).readSlot? i = some v :=
  readSlot?_eq_some.2 fun k hk => read?_writeSlot_in m i k v hk

theorem readSlot?_writeSlot_other (m : Memory) {i j : Nat} (v : Word) (h : j ≠ i) :
    (m.writeSlot i v).readSlot? j = m.readSlot? j := by
  simp only [Memory.readSlot?]
  rw [read?_writeSlot_out _ _ _ _ (by omega), read?_writeSlot_out _ _ _ _ (by omega),
    read?_writeSlot_out _ _ _ _ (by omega), read?_writeSlot_out _ _ _ _ (by omega)]

/-- The slots depend on the bytes alone. -/
theorem readSlot?_congr {m m' : Memory} {i : Nat} (h : ∀ k < 4, m'.read? (4 * i + k) = m.read? (4 * i + k)) :
    m'.readSlot? i = m.readSlot? i := by
  have h0 := h 0 (by decide)
  simp only [Nat.add_zero] at h0
  simp only [Memory.readSlot?, h0, h 1 (by decide), h 2 (by decide), h 3 (by decide)]

theorem read?_ofBytesFrom (bytes : List Byte) (n a : Nat) (h : n ≤ a) :
    (Memory.ofBytesFrom n bytes).read? a = bytes[a - n]? := by
  induction bytes generalizing n with
  | nil => simp [Memory.ofBytesFrom]
  | cons b bs ih =>
    simp only [Memory.ofBytesFrom, Memory.read?]
    split
    · rename_i h1; subst h1; simp
    · rename_i h1
      rw [ih (n + 1) (by omega), show a - n = (a - (n + 1)) + 1 by omega, List.getElem?_cons_succ]

/-- What a loaded buffer holds (42_sequencer_and_host.md R162). -/
@[simp] theorem read?_ofBytes (bytes : List Byte) (a : Nat) : (Memory.ofBytes bytes).read? a = bytes[a]? := by
  simpa [Memory.ofBytes] using read?_ofBytesFrom bytes 0 a (Nat.zero_le a)

theorem keys_ofBytesFrom (bytes : List Byte) (n : Nat) :
    (Memory.ofBytesFrom n bytes).map Prod.fst = List.range' n bytes.length := by
  induction bytes generalizing n with
  | nil => rfl
  | cons b bs ih => simp [Memory.ofBytesFrom, ih, List.range'_succ]

theorem keys_ofBytes (bytes : List Byte) : (Memory.ofBytes bytes).map Prod.fst = List.range bytes.length := by
  simp [Memory.ofBytes, keys_ofBytesFrom, List.range_eq_range']

theorem ofBytes_wf (bytes : List Byte) : Memory.wf (Memory.ofBytes bytes) := by
  simp only [Memory.wf, keys_ofBytes]
  exact List.pairwise_lt_range

/-- An index is listed exactly when it has a value. -/
theorem read?_isSome_iff (m : Memory) (a : Nat) : (m.read? a).isSome ↔ a ∈ m.map Prod.fst := by
  induction m with
  | nil => simp
  | cons c m ih =>
    obtain ⟨k, w⟩ := c
    simp only [Memory.read?, List.map_cons, List.mem_cons]
    split
    · rename_i h; simp [h]
    · rename_i h; simp [ih, Ne.symm h]

end Sys2Proof.Machine
end

