-- ==== Sys2Proof/Laws/State.lean ====
section
/-! SUPPORT. What each named update of the state does to each field, so that no later proof unfolds a record
update. -/

namespace Sys2Proof.Machine

variable (s : State)

/-! ### `drawn` -/

@[simp] theorem drawn_params : (drawn s).params = s.params := rfl
@[simp] theorem drawn_idxPtr : (drawn s).idxPtr = s.idxPtr := rfl
@[simp] theorem drawn_status : (drawn s).status = s.status := rfl
@[simp] theorem drawn_hdr : (drawn s).hdr = s.hdr := rfl
@[simp] theorem drawn_hdrWritten : (drawn s).hdrWritten = s.hdrWritten := rfl
@[simp] theorem drawn_table : (drawn s).table = s.table := rfl
@[simp] theorem drawn_ibuf : (drawn s).ibuf = s.ibuf := rfl
@[simp] theorem drawn_ibufLen : (drawn s).ibufLen = s.ibufLen := rfl
@[simp] theorem drawn_obuf : (drawn s).obuf = s.obuf := rfl
@[simp] theorem drawn_draws : (drawn s).draws = s.draws + 1 := rfl
@[simp] theorem drawn_reply : (drawn s).reply = s.reply := rfl
@[simp] theorem drawn_agenda : (drawn s).agenda = s.agenda := rfl

/-! ### `dropCommand` -/

@[simp] theorem dropCommand_params : (dropCommand s).params = s.params := rfl
@[simp] theorem dropCommand_idxPtr : (dropCommand s).idxPtr = s.idxPtr := rfl
@[simp] theorem dropCommand_status : (dropCommand s).status = ⟨s.status.busy, s.status.done, s.status.err, true⟩ := rfl
@[simp] theorem dropCommand_hdr : (dropCommand s).hdr = s.hdr := rfl
@[simp] theorem dropCommand_hdrWritten : (dropCommand s).hdrWritten = s.hdrWritten := rfl
@[simp] theorem dropCommand_table : (dropCommand s).table = s.table := rfl
@[simp] theorem dropCommand_ibuf : (dropCommand s).ibuf = s.ibuf := rfl
@[simp] theorem dropCommand_ibufLen : (dropCommand s).ibufLen = s.ibufLen := rfl
@[simp] theorem dropCommand_obuf : (dropCommand s).obuf = s.obuf := rfl
@[simp] theorem dropCommand_draws : (dropCommand s).draws = s.draws := rfl
@[simp] theorem dropCommand_reply : (dropCommand s).reply = s.reply := rfl
@[simp] theorem dropCommand_agenda : (dropCommand s).agenda = s.agenda := rfl

/-! ### `raiseError` -/

@[simp] theorem raiseError_params (e : ErrCode) : (raiseError e s).params = s.params := rfl
@[simp] theorem raiseError_idxPtr (e : ErrCode) : (raiseError e s).idxPtr = s.idxPtr := rfl
@[simp] theorem raiseError_status (e : ErrCode) : (raiseError e s).status = ⟨s.status.busy, s.status.done, e, s.status.hosterr⟩ := rfl
@[simp] theorem raiseError_hdr (e : ErrCode) : (raiseError e s).hdr = s.hdr := rfl
@[simp] theorem raiseError_hdrWritten (e : ErrCode) : (raiseError e s).hdrWritten = s.hdrWritten := rfl
@[simp] theorem raiseError_table (e : ErrCode) : (raiseError e s).table = s.table := rfl
@[simp] theorem raiseError_ibuf (e : ErrCode) : (raiseError e s).ibuf = s.ibuf := rfl
@[simp] theorem raiseError_ibufLen (e : ErrCode) : (raiseError e s).ibufLen = s.ibufLen := rfl
@[simp] theorem raiseError_obuf (e : ErrCode) : (raiseError e s).obuf = s.obuf := rfl
@[simp] theorem raiseError_draws (e : ErrCode) : (raiseError e s).draws = s.draws := rfl
@[simp] theorem raiseError_reply (e : ErrCode) : (raiseError e s).reply = s.reply := rfl
@[simp] theorem raiseError_agenda (e : ErrCode) : (raiseError e s).agenda = s.agenda := rfl

/-! ### `clearOutcome` -/

@[simp] theorem clearOutcome_params : (clearOutcome s).params = s.params := rfl
@[simp] theorem clearOutcome_idxPtr : (clearOutcome s).idxPtr = s.idxPtr := rfl
@[simp] theorem clearOutcome_status : (clearOutcome s).status = ⟨s.status.busy, false, .noError, s.status.hosterr⟩ := rfl
@[simp] theorem clearOutcome_hdr : (clearOutcome s).hdr = s.hdr := rfl
@[simp] theorem clearOutcome_hdrWritten : (clearOutcome s).hdrWritten = s.hdrWritten := rfl
@[simp] theorem clearOutcome_table : (clearOutcome s).table = s.table := rfl
@[simp] theorem clearOutcome_ibuf : (clearOutcome s).ibuf = s.ibuf := rfl
@[simp] theorem clearOutcome_ibufLen : (clearOutcome s).ibufLen = s.ibufLen := rfl
@[simp] theorem clearOutcome_obuf : (clearOutcome s).obuf = s.obuf := rfl
@[simp] theorem clearOutcome_draws : (clearOutcome s).draws = s.draws := rfl
@[simp] theorem clearOutcome_reply : (clearOutcome s).reply = s.reply := rfl
@[simp] theorem clearOutcome_agenda : (clearOutcome s).agenda = s.agenda := rfl

/-! ### `writeHeader` -/

@[simp] theorem writeHeader_params (h : Header) : (writeHeader h s).params = s.params := rfl
@[simp] theorem writeHeader_idxPtr (h : Header) : (writeHeader h s).idxPtr = s.idxPtr := rfl
@[simp] theorem writeHeader_status (h : Header) : (writeHeader h s).status = s.status := rfl
@[simp] theorem writeHeader_hdr (h : Header) : (writeHeader h s).hdr = h := rfl
@[simp] theorem writeHeader_hdrWritten (h : Header) : (writeHeader h s).hdrWritten = true := rfl
@[simp] theorem writeHeader_table (h : Header) : (writeHeader h s).table = s.table := rfl
@[simp] theorem writeHeader_ibuf (h : Header) : (writeHeader h s).ibuf = s.ibuf := rfl
@[simp] theorem writeHeader_ibufLen (h : Header) : (writeHeader h s).ibufLen = s.ibufLen := rfl
@[simp] theorem writeHeader_obuf (h : Header) : (writeHeader h s).obuf = s.obuf := rfl
@[simp] theorem writeHeader_draws (h : Header) : (writeHeader h s).draws = s.draws := rfl
@[simp] theorem writeHeader_reply (h : Header) : (writeHeader h s).reply = s.reply := rfl
@[simp] theorem writeHeader_agenda (h : Header) : (writeHeader h s).agenda = s.agenda := rfl

/-! ### `setBusy` -/

@[simp] theorem setBusy_params : (setBusy s).params = s.params := rfl
@[simp] theorem setBusy_idxPtr : (setBusy s).idxPtr = s.idxPtr := rfl
@[simp] theorem setBusy_status : (setBusy s).status = ⟨true, s.status.done, s.status.err, s.status.hosterr⟩ := rfl
@[simp] theorem setBusy_hdr : (setBusy s).hdr = s.hdr := rfl
@[simp] theorem setBusy_hdrWritten : (setBusy s).hdrWritten = s.hdrWritten := rfl
@[simp] theorem setBusy_table : (setBusy s).table = s.table := rfl
@[simp] theorem setBusy_ibuf : (setBusy s).ibuf = s.ibuf := rfl
@[simp] theorem setBusy_ibufLen : (setBusy s).ibufLen = s.ibufLen := rfl
@[simp] theorem setBusy_obuf : (setBusy s).obuf = s.obuf := rfl
@[simp] theorem setBusy_draws : (setBusy s).draws = s.draws := rfl
@[simp] theorem setBusy_reply : (setBusy s).reply = s.reply := rfl
@[simp] theorem setBusy_agenda : (setBusy s).agenda = s.agenda := rfl

/-! ### `setDone` -/

@[simp] theorem setDone_params : (setDone s).params = s.params := rfl
@[simp] theorem setDone_idxPtr : (setDone s).idxPtr = s.idxPtr := rfl
@[simp] theorem setDone_status : (setDone s).status = ⟨false, true, s.status.err, s.status.hosterr⟩ := rfl
@[simp] theorem setDone_hdr : (setDone s).hdr = s.hdr := rfl
@[simp] theorem setDone_hdrWritten : (setDone s).hdrWritten = s.hdrWritten := rfl
@[simp] theorem setDone_table : (setDone s).table = s.table := rfl
@[simp] theorem setDone_ibuf : (setDone s).ibuf = s.ibuf := rfl
@[simp] theorem setDone_ibufLen : (setDone s).ibufLen = s.ibufLen := rfl
@[simp] theorem setDone_obuf : (setDone s).obuf = s.obuf := rfl
@[simp] theorem setDone_draws : (setDone s).draws = s.draws := rfl
@[simp] theorem setDone_reply : (setDone s).reply = s.reply := rfl
@[simp] theorem setDone_agenda : (setDone s).agenda = s.agenda := rfl

/-! ### `clearFlags` -/

@[simp] theorem clearFlags_params : (clearFlags s).params = s.params := rfl
@[simp] theorem clearFlags_idxPtr : (clearFlags s).idxPtr = s.idxPtr := rfl
@[simp] theorem clearFlags_status : (clearFlags s).status = ⟨s.status.busy, false, .noError, false⟩ := rfl
@[simp] theorem clearFlags_hdr : (clearFlags s).hdr = s.hdr := rfl
@[simp] theorem clearFlags_hdrWritten : (clearFlags s).hdrWritten = s.hdrWritten := rfl
@[simp] theorem clearFlags_table : (clearFlags s).table = s.table := rfl
@[simp] theorem clearFlags_ibuf : (clearFlags s).ibuf = s.ibuf := rfl
@[simp] theorem clearFlags_ibufLen : (clearFlags s).ibufLen = s.ibufLen := rfl
@[simp] theorem clearFlags_obuf : (clearFlags s).obuf = s.obuf := rfl
@[simp] theorem clearFlags_draws : (clearFlags s).draws = s.draws := rfl
@[simp] theorem clearFlags_reply : (clearFlags s).reply = s.reply := rfl
@[simp] theorem clearFlags_agenda : (clearFlags s).agenda = s.agenda := rfl

/-! ### `resetBlock` -/

@[simp] theorem resetBlock_params : (resetBlock s).params = s.params := rfl
@[simp] theorem resetBlock_idxPtr : (resetBlock s).idxPtr = 0 := rfl
@[simp] theorem resetBlock_status : (resetBlock s).status = Status.atReset := rfl
@[simp] theorem resetBlock_hdr : (resetBlock s).hdr = Header.atReset := rfl
@[simp] theorem resetBlock_hdrWritten : (resetBlock s).hdrWritten = false := rfl
@[simp] theorem resetBlock_table : (resetBlock s).table = .none := rfl
@[simp] theorem resetBlock_ibuf : (resetBlock s).ibuf = [] := rfl
@[simp] theorem resetBlock_ibufLen : (resetBlock s).ibufLen = 0 := rfl
@[simp] theorem resetBlock_obuf : (resetBlock s).obuf = [] := rfl
@[simp] theorem resetBlock_draws : (resetBlock s).draws = s.draws := rfl
@[simp] theorem resetBlock_reply : (resetBlock s).reply = s.reply := rfl
@[simp] theorem resetBlock_agenda : (resetBlock s).agenda = s.agenda := rfl

/-! ### `afterTurn` -/

@[simp] theorem afterTurn_params : (afterTurn s).params = s.params := rfl
@[simp] theorem afterTurn_idxPtr : (afterTurn s).idxPtr = s.idxPtr := rfl
@[simp] theorem afterTurn_status : (afterTurn s).status = s.status := rfl
@[simp] theorem afterTurn_hdr : (afterTurn s).hdr = s.hdr := rfl
@[simp] theorem afterTurn_hdrWritten : (afterTurn s).hdrWritten = s.hdrWritten := rfl
@[simp] theorem afterTurn_table : (afterTurn s).table = s.table := rfl
@[simp] theorem afterTurn_ibuf : (afterTurn s).ibuf = s.ibuf := rfl
@[simp] theorem afterTurn_ibufLen : (afterTurn s).ibufLen = s.ibufLen := rfl
@[simp] theorem afterTurn_obuf : (afterTurn s).obuf = s.obuf := rfl
@[simp] theorem afterTurn_draws : (afterTurn s).draws = s.draws := rfl
@[simp] theorem afterTurn_reply : (afterTurn s).reply = s.reply := rfl
@[simp] theorem afterTurn_agenda : (afterTurn s).agenda = s.agenda.tail := rfl

/-! ### `afterTableRead` and `finishPixel` -/

@[simp] theorem afterTableRead_params (k : TblKind) : (afterTableRead k s).params = s.params := by
  unfold afterTableRead; split <;> rfl
@[simp] theorem afterTableRead_idxPtr (k : TblKind) : (afterTableRead k s).idxPtr = s.idxPtr := by
  unfold afterTableRead; split <;> rfl
@[simp] theorem afterTableRead_status (k : TblKind) : (afterTableRead k s).status = s.status := by
  unfold afterTableRead; split <;> rfl
@[simp] theorem afterTableRead_hdr (k : TblKind) : (afterTableRead k s).hdr = s.hdr := by
  unfold afterTableRead; split <;> rfl
@[simp] theorem afterTableRead_hdrWritten (k : TblKind) : (afterTableRead k s).hdrWritten = s.hdrWritten := by
  unfold afterTableRead; split <;> rfl
@[simp] theorem afterTableRead_table (k : TblKind) : (afterTableRead k s).table = s.table := by
  unfold afterTableRead; split <;> rfl
@[simp] theorem afterTableRead_ibuf (k : TblKind) : (afterTableRead k s).ibuf = s.ibuf := by
  unfold afterTableRead; split <;> rfl
@[simp] theorem afterTableRead_ibufLen (k : TblKind) : (afterTableRead k s).ibufLen = s.ibufLen := by
  unfold afterTableRead; split <;> rfl
@[simp] theorem afterTableRead_obuf (k : TblKind) : (afterTableRead k s).obuf = s.obuf := by
  unfold afterTableRead; split <;> rfl
@[simp] theorem afterTableRead_reply (k : TblKind) : (afterTableRead k s).reply = s.reply := by
  unfold afterTableRead; split <;> rfl
@[simp] theorem afterTableRead_agenda (k : TblKind) : (afterTableRead k s).agenda = s.agenda := by
  unfold afterTableRead; split <;> rfl

/-- The read of a bank changes at most the count of draws. -/
theorem afterTableRead_eq (k : TblKind) : afterTableRead k s = { s with draws := (afterTableRead k s).draws } := by
  unfold afterTableRead; split <;> rfl

theorem afterTableRead_of_kind {k : TblKind} {s : State} (h : s.table.kind = k) : afterTableRead k s = s := if_pos h

@[simp] theorem afterTableRead_draws (k : TblKind) :
    (afterTableRead k s).draws = if s.table.kind = k then s.draws else s.draws + 1 := by
  unfold afterTableRead; split <;> rfl

@[simp] theorem finishPixel_params : (finishPixel s).params = s.params := by
  simp only [finishPixel]; split <;> rfl
@[simp] theorem finishPixel_hdr : (finishPixel s).hdr = s.hdr := by
  simp only [finishPixel]; split <;> rfl
@[simp] theorem finishPixel_hdrWritten : (finishPixel s).hdrWritten = s.hdrWritten := by
  simp only [finishPixel]; split <;> rfl
@[simp] theorem finishPixel_table : (finishPixel s).table = s.table := by
  simp only [finishPixel]; split <;> rfl
@[simp] theorem finishPixel_ibuf : (finishPixel s).ibuf = s.ibuf := by
  simp only [finishPixel]; split <;> rfl
@[simp] theorem finishPixel_ibufLen : (finishPixel s).ibufLen = s.ibufLen := by
  simp only [finishPixel]; split <;> rfl
@[simp] theorem finishPixel_obuf : (finishPixel s).obuf = s.obuf := by
  simp only [finishPixel]; split <;> rfl
@[simp] theorem finishPixel_draws : (finishPixel s).draws = s.draws := by
  simp only [finishPixel]; split <;> rfl
@[simp] theorem finishPixel_reply : (finishPixel s).reply = s.reply := by
  simp only [finishPixel]; split <;> rfl
@[simp] theorem finishPixel_agenda : (finishPixel s).agenda = s.agenda := by
  simp only [finishPixel]; split <;> rfl

@[simp] theorem finishPixel_idxPtr : (finishPixel s).idxPtr = s.idxPtr + 1 := by
  simp only [finishPixel]; split <;> rfl

/-- The end of a pixel step changes `IDX_PTR` and `STATUS` only. -/
theorem finishPixel_eq : finishPixel s = { s with idxPtr := s.idxPtr + 1, status := (finishPixel s).status } := by
  simp only [finishPixel]; split <;> rfl

/-- `STATUS` after a pixel step: the end of the run at `PIXEL_COUNT` (42_sequencer_and_host.md R170). -/
theorem finishPixel_status : (finishPixel s).status =
    if s.idxPtr + 1 = s.hdr.pixelCount then ⟨false, true, s.status.err, s.status.hosterr⟩ else s.status := by
  simp only [finishPixel]; split <;> rfl

end Sys2Proof.Machine
end

