-- ==== Sys2Proof/Laws/Exec.lean ====
section
/-! SUPPORT. One spec lemma per shared operation and per meaning: everything it can do when it answers, which later
proofs cite instead of unfolding it. -/

namespace Sys2Proof.Machine

variable {s t : State}

/-- Everything `storePixel` can do. -/
theorem storePixel_next {v : Word} : storePixel v s = .next t ↔
    s.idxPtr < s.params.ibufDepth ∧ t = { s with obuf := s.obuf.writeSlot s.idxPtr v } := by
  unfold storePixel
  split
  · rename_i h; simp [h, eq_comm]
  · rename_i h; simp [h]

/-- `YIQ.PIX` at a slot of the output buffer (40_yiq_decoder.md R121). -/
theorem execYiqPix_next (l : BitVec 4) (a b : BitVec 2) (h : s.idxPtr < s.params.ibufDepth) :
    execYiqPix l a b s = .next { afterTableRead .yiq s with
      obuf := s.obuf.writeSlot s.idxPtr (yiqPixel (yiqBank s) l a b) } := by
  unfold execYiqPix
  exact storePixel_next.2 ⟨by simpa using h, by simp⟩

/-- `PAL.PIX` at a slot of the output buffer (41_palette_decoder.md R141). -/
theorem execPalPix_next (i : BitVec 8) (h : s.idxPtr < s.params.ibufDepth) :
    execPalPix i s = .next { afterTableRead .pal s with
      obuf := s.obuf.writeSlot s.idxPtr (palPixel (palBank s) i) } := by
  unfold execPalPix
  exact storePixel_next.2 ⟨by simpa using h, by simp⟩

theorem yiqBank_loaded {bank : YiqBank} (h : s.table = .yiq bank) : yiqBank s = bank := by simp [yiqBank, h]

theorem palBank_loaded {bank : PalBank} (h : s.table = .pal bank) : palBank s = bank := by simp [palBank, h]

/-- The two ways a pixel operation writes: some word, into its own slot, and no other field but the count of draws. -/
theorem execPixel_cases {i : Instr} (hi : i.isHostCommand = false) (h : exec i s = .next t) :
    ∃ v d, s.idxPtr < s.params.ibufDepth ∧ t = { s with obuf := s.obuf.writeSlot s.idxPtr v, draws := d } ∧
      slotByte v 3 = 0xFF := by
  cases i with
  | yiqPix l a b =>
    obtain ⟨h1, rfl⟩ := storePixel_next.1 h
    refine ⟨yiqPixel (yiqBank s) l a b, (afterTableRead .yiq s).draws, by simpa using h1, ?_, slotByte_slotOf_3 _ _ _ _⟩
    rw [afterTableRead_eq s .yiq]
  | palPix i =>
    obtain ⟨h1, rfl⟩ := storePixel_next.1 h
    refine ⟨palPixel (palBank s) i, (afterTableRead .pal s).draws, by simpa using h1, ?_, slotByte_slotOf_3 _ _ _ _⟩
    rw [afterTableRead_eq s .pal]
  | _ => cases hi

/-- Everything `whenIdle` can do (42_sequencer_and_host.md R163). -/
theorem whenIdle_next {act : State → Result} : whenIdle s act = .next t ↔
    (s.status.busy = true ∧ t = dropCommand s) ∨ (s.status.busy = false ∧ act s = .next t) := by
  unfold whenIdle
  cases h : s.status.busy <;> simp [eq_comm]

/-- Everything a read can do (42_sequencer_and_host.md R175): hand over a value, with or without a draw. -/
theorem execRead_cases {name : ReadName} (h : execRead name s = .next t) :
    ∃ r, t = { s with reply := some r } ∨ t = { s with reply := some r, draws := s.draws + 1 } := by
  have hh : ∀ {v : Header → Reply} {f : Nat → Reply}, answerHeader v f s = .next t →
      ∃ r, t = { s with reply := some r } ∨ t = { s with reply := some r, draws := s.draws + 1 } := by
    intro v f h
    unfold answerHeader answer answerFree drawn at h
    split at h <;> cases h
    · exact ⟨_, .inl rfl⟩
    · exact ⟨_, .inr rfl⟩
  have ho : ∀ {v : Option Reply} {f : Nat → Reply}, answerOutput v f s = .next t →
      ∃ r, t = { s with reply := some r } ∨ t = { s with reply := some r, draws := s.draws + 1 } := by
    intro v f h
    unfold answerOutput answer answerFree drawn at h
    split at h
    · cases h; exact ⟨_, .inr rfl⟩
    · split at h <;> cases h
      · exact ⟨_, .inl rfl⟩
      · exact ⟨_, .inr rfl⟩
  cases name with
  | status => cases h; exact ⟨_, .inl rfl⟩
  | idxPtr => cases h; exact ⟨_, .inl rfl⟩
  | ibufLen => cases h; exact ⟨_, .inl rfl⟩
  | tblKind => cases h; exact ⟨_, .inl rfl⟩
  | hdrWidth => simp only [execRead] at h; exact hh h
  | hdrHeight => simp only [execRead] at h; exact hh h
  | hdrFormat => simp only [execRead] at h; exact hh h
  | hdrSmallLod => simp only [execRead] at h; exact hh h
  | hdrLargeLod => simp only [execRead] at h; exact hh h
  | obuf i =>
    simp only [execRead] at h
    split at h
    · exact ho h
    · cases h
  | ostream j =>
    simp only [execRead] at h
    split at h
    · exact ho h
    · cases h

/-- A read of a name in range answers (42_sequencer_and_host.md R175). -/
theorem execRead_completes {name : ReadName} (h : name.wf s.params = true) : ∃ t, execRead name s = .next t := by
  have hh : ∀ v f, ∃ t, answerHeader v f s = .next t := by
    intro v f
    unfold answerHeader
    split <;> exact ⟨_, rfl⟩
  have ho : ∀ v f, ∃ t, answerOutput v f s = .next t := by
    intro v f
    unfold answerOutput
    split
    · exact ⟨_, rfl⟩
    · split <;> exact ⟨_, rfl⟩
  cases name with
  | status => exact ⟨_, rfl⟩
  | idxPtr => exact ⟨_, rfl⟩
  | ibufLen => exact ⟨_, rfl⟩
  | tblKind => exact ⟨_, rfl⟩
  | hdrWidth => simp only [execRead]; exact hh _ _
  | hdrHeight => simp only [execRead]; exact hh _ _
  | hdrFormat => simp only [execRead]; exact hh _ _
  | hdrSmallLod => simp only [execRead]; exact hh _ _
  | hdrLargeLod => simp only [execRead]; exact hh _ _
  | obuf i =>
    simp only [ReadName.wf, decide_eq_true_eq] at h
    simp only [execRead, h, if_true]
    exact ho _ _
  | ostream j =>
    simp only [ReadName.wf, decide_eq_true_eq] at h
    simp only [execRead, h, if_true]
    exact ho _ _

/-- When each code is the first failing check's (42_sequencer_and_host.md R167). -/
theorem startCheck_badFormat {h : Header} {kind : TblKind} {len : Nat} : startCheck h kind len = .badFormat ↔
    Format.tableKind h.format = none := by
  unfold startCheck
  cases hf : Format.tableKind h.format with
  | none => simp
  | some k => by_cases hk : kind = k <;> by_cases hl : len < h.pixelCount <;> simp [hk, hl]

theorem startCheck_tableMismatch {h : Header} {kind : TblKind} {len : Nat} :
    startCheck h kind len = .tableMismatch ↔ ∃ k, Format.tableKind h.format = some k ∧ kind ≠ k := by
  unfold startCheck
  cases hf : Format.tableKind h.format with
  | none => simp
  | some k => by_cases hk : kind = k <;> by_cases hl : len < h.pixelCount <;> simp [hk, hl]

theorem startCheck_invalidLength {h : Header} {kind : TblKind} {len : Nat} :
    startCheck h kind len = .invalidLength ↔ Format.tableKind h.format = some kind ∧ len < h.pixelCount := by
  unfold startCheck
  cases hf : Format.tableKind h.format with
  | none => simp
  | some k => by_cases hk : kind = k <;> by_cases hl : len < h.pixelCount <;> simp [hk, hl, eq_comm]

theorem startCheck_ok {h : Header} {kind : TblKind} {len : Nat} : startCheck h kind len = .noError ↔
    Format.tableKind h.format = some kind ∧ h.pixelCount ≤ len := by
  unfold startCheck
  cases hf : Format.tableKind h.format with
  | none => simp
  | some k =>
    by_cases hk : kind = k
    · subst hk
      by_cases hl : len < h.pixelCount
      · simp [hl]
      · simp [hl]; omega
    · simp [hk, Ne.symm hk]

/-- A `START` issued when idle (42_sequencer_and_host.md R166). -/
theorem execStart_idle {width height : Word} {format : Format} {smallLod largeLod : Word}
    (h : s.status.busy = false) : execStart width height format smallLod largeLod s =
      .next (decideStart (clearOutcome (writeHeader ⟨width, height, format, smallLod, largeLod⟩ s))) := by
  simp [execStart, whenIdle, h]

/-- The three ways a `START` that is not dropped ends (42_sequencer_and_host.md R166 to R169). -/
theorem decideStart_cases (s : State) :
    (startCheck s.hdr s.table.kind s.ibufLen ≠ .noError ∧
      decideStart s = raiseError (startCheck s.hdr s.table.kind s.ibufLen) s) ∨
    (startCheck s.hdr s.table.kind s.ibufLen = .noError ∧ s.hdr.pixelCount = 0 ∧
      decideStart s = setDone { s with idxPtr := 0 }) ∨
    (startCheck s.hdr s.table.kind s.ibufLen = .noError ∧ 0 < s.hdr.pixelCount ∧
      decideStart s = setBusy { s with idxPtr := 0 }) := by
  cases hc : startCheck s.hdr s.table.kind s.ibufLen with
  | noError =>
    by_cases hp : s.hdr.pixelCount = 0
    · exact .inr (.inl ⟨rfl, hp, by simp [decideStart, hc, hp]⟩)
    · exact .inr (.inr ⟨rfl, Nat.pos_of_ne_zero hp, by simp [decideStart, hc, hp]⟩)
  | invalidLength => exact .inl ⟨by decide, by simp [decideStart, hc]⟩
  | badFormat => exact .inl ⟨by decide, by simp [decideStart, hc]⟩
  | tableMismatch => exact .inl ⟨by decide, by simp [decideStart, hc]⟩

/-- Every well-formed host command answers, busy or idle. -/
theorem execHost_completes {c : Instr} (hc : c.isHostCommand = true) (hw : c.wf s.params = true) :
    ∃ t, exec c s = .next t := by
  have hi : ∀ {act : State → Result}, (∃ t, act s = .next t) → ∃ t, whenIdle s act = .next t := by
    rintro act ⟨t, ht⟩
    unfold whenIdle
    split
    · exact ⟨_, rfl⟩
    · exact ⟨t, ht⟩
  cases c with
  | yiqPix l a b => cases hc
  | palPix i => cases hc
  | loadTableYiq l a b =>
    simp only [Instr.wf] at hw
    simp only [exec, execLoadTableYiq, hw, if_true]
    exact hi ⟨_, rfl⟩
  | loadTablePal e =>
    simp only [exec, execLoadTablePal]
    exact hi ⟨_, rfl⟩
  | loadIndex bytes =>
    simp only [exec, execLoadIndex]
    refine hi ?_
    split <;> exact ⟨_, rfl⟩
  | start =>
    simp only [exec, execStart]
    exact hi ⟨_, rfl⟩
  | clear =>
    simp only [exec, execClear]
    exact hi ⟨_, rfl⟩
  | read name => exact execRead_completes hw
  | reset => exact ⟨_, rfl⟩

/-- What `START` leaves alone (42_sequencer_and_host.md R166, R168). -/
@[simp] theorem decideStart_hosterr (s : State) : (decideStart s).status.hosterr = s.status.hosterr := by
  rcases decideStart_cases s with ⟨-, e⟩ | ⟨-, -, e⟩ | ⟨-, -, e⟩ <;> rw [e] <;> rfl

theorem decideStart_eq (s : State) : decideStart s =
    { s with status := (decideStart s).status, idxPtr := (decideStart s).idxPtr } := by
  rcases decideStart_cases s with ⟨-, e⟩ | ⟨-, -, e⟩ | ⟨-, -, e⟩ <;> rw [e] <;> rfl

/-- Everything a host command can do when it answers (42_sequencer_and_host.md R160 to R175,
70_reset_and_hazards.md R240). -/
inductive HostEffect (s : State) : Instr → State → Prop where
  | dropped (c : Instr) : s.status.busy = true → droppedWhenBusy c = true → HostEffect s c (dropCommand s)
  | loadTableYiq (l : Vector Int 16) (a b : Vector ChromaRow 4) : s.status.busy = false →
      YiqBank.fits s.params.tblW ⟨l, a, b⟩ = true →
      HostEffect s (.loadTableYiq l a b) { s with table := .yiq ⟨l, a, b⟩ }
  | loadTablePal (e : Vector Word 256) : s.status.busy = false →
      HostEffect s (.loadTablePal e) { s with table := .pal e }
  | loadIndex (bytes : List Byte) : s.status.busy = false → bytes.length ≤ s.params.ibufDepth →
      HostEffect s (.loadIndex bytes) { s with ibuf := Memory.ofBytes bytes, ibufLen := bytes.length }
  | tooLong (bytes : List Byte) : s.status.busy = false → s.params.ibufDepth < bytes.length →
      HostEffect s (.loadIndex bytes) (dropCommand s)
  | start (w h : Word) (f : Format) (a b : Word) : s.status.busy = false →
      HostEffect s (.start w h f a b) (decideStart (clearOutcome (writeHeader ⟨w, h, f, a, b⟩ s)))
  | clear : s.status.busy = false → HostEffect s .clear (clearFlags s)
  | read (name : ReadName) (r : Option Reply) (d : Nat) : HostEffect s (.read name) { s with reply := r, draws := d }
  | reset : HostEffect s .reset (resetBlock s)

theorem execHost_effect {c : Instr} (hc : c.isHostCommand = true) (h : exec c s = .next t) : HostEffect s c t := by
  cases c with
  | yiqPix l a b => cases hc
  | palPix i => cases hc
  | loadTableYiq l a b =>
    simp only [exec, execLoadTableYiq] at h
    split at h
    · rename_i hf
      rcases whenIdle_next.1 h with ⟨hb, rfl⟩ | ⟨hb, h⟩
      · exact .dropped _ hb rfl
      · cases h
        exact .loadTableYiq l a b hb hf
    · cases h
  | loadTablePal e =>
    simp only [exec, execLoadTablePal] at h
    rcases whenIdle_next.1 h with ⟨hb, rfl⟩ | ⟨hb, h⟩
    · exact .dropped _ hb rfl
    · cases h
      exact .loadTablePal e hb
  | loadIndex bytes =>
    simp only [exec, execLoadIndex] at h
    rcases whenIdle_next.1 h with ⟨hb, rfl⟩ | ⟨hb, h⟩
    · exact .dropped _ hb rfl
    · split at h <;> cases h
      · exact .loadIndex bytes hb (by assumption)
      · exact .tooLong bytes hb (by omega)
  | start w h' f a b =>
    simp only [exec, execStart] at h
    rcases whenIdle_next.1 h with ⟨hb, rfl⟩ | ⟨hb, h⟩
    · exact .dropped _ hb rfl
    · cases h
      exact .start w h' f a b hb
  | clear =>
    simp only [exec, execClear] at h
    rcases whenIdle_next.1 h with ⟨hb, rfl⟩ | ⟨hb, h⟩
    · exact .dropped _ hb rfl
    · cases h
      exact .clear hb
  | read name =>
    obtain ⟨r, rfl | rfl⟩ := execRead_cases h
    · exact .read name _ _
    · exact .read name _ _
  | reset =>
    cases h
    exact .reset

end Sys2Proof.Machine
end

