-- ==== Sys2Proof/Laws/Datapath.lean ====
section
/-! SUPPORT. What the two datapaths compute, as numbers and as the bytes of the slot. -/

namespace Sys2Proof.Machine

theorem fitsWidth_iff {w : Nat} {v : Int} : fitsWidth w v = true ↔ -(2 ^ (w - 1) : Int) ≤ v ∧ v < 2 ^ (w - 1) := by
  simp [fitsWidth]

/-- The three operands of a channel fit the width the bank fits (10_state.md R28 to R30). -/
theorem operands_fit {w : Nat} {t : YiqBank} (h : t.fits w = true) (l : BitVec 4) (a b : BitVec 2) (c : Channel) :
    fitsWidth w (lumaOperand t l) = true ∧ fitsWidth w (chromaAOperand t a c) = true ∧
      fitsWidth w (chromaBOperand t b c) = true := by
  simp only [YiqBank.fits, Bool.and_eq_true, List.all_eq_true, Vector.mem_toList_iff] at h
  obtain ⟨⟨h1, h2⟩, h3⟩ := h
  refine ⟨h1 _ (Vector.getElem_mem _), ?_, ?_⟩
  · have := h2 _ (Vector.getElem_mem a.isLt)
    simp only [ChromaRow.fits, Bool.and_eq_true] at this
    cases c <;> simp [chromaAOperand, ChromaRow.entry, this]
  · have := h3 _ (Vector.getElem_mem b.isLt)
    simp only [ChromaRow.fits, Bool.and_eq_true] at this
    cases c <;> simp [chromaBOperand, ChromaRow.entry, this]

/-- The YIQ pixel's bytes in stream order: R, G, B, `0xFF` (30_encoding.md R97). -/
theorem yiqPixel_eq_slotOf (t : YiqBank) (l : BitVec 4) (a b : BitVec 2) : yiqPixel t l a b =
    slotOf (channelByte t l a b .red) (channelByte t l a b .green) (channelByte t l a b .blue) 0xFF := rfl

/-- The PAL pixel's bytes in stream order: B, G, R, `0xFF` (30_encoding.md R98). -/
theorem palPixel_eq_slotOf (p : PalBank) (i : BitVec 8) : palPixel p i =
    slotOf (entryBlue (paletteOperand p i)) (entryGreen (paletteOperand p i)) (entryRed (paletteOperand p i)) 0xFF :=
  rfl

/-- The PAL pixel as a number: the low 24 bits of the entry under alpha `0xFF` (41_palette_decoder.md R141). -/
theorem palPixel_toNat (p : PalBank) (i : BitVec 8) :
    (palPixel p i).toNat = (paletteOperand p i).toNat % 2 ^ 24 + 2 ^ 24 * 255 := by
  rw [palPixel_eq_slotOf, slotOf_toNat]
  simp only [entryBlue, entryGreen, entryRed, BitVec.extractLsb'_toNat, Nat.shiftRight_eq_div_pow,
    show (0xFF : Byte).toNat = 255 from rfl]
  omega

end Sys2Proof.Machine
end

