-- ==== Sys2Proof/Laws/Decode.lean ====
section
/-! SUPPORT. The fields of an index byte and the byte of its fields (30_encoding.md R92). -/

namespace Sys2Proof

/-- `b = (li << 4) | (ai << 2) | bi` as a number (30_encoding.md R92 "Inverse"). -/
theorem encode_yiqPix_toNat (l : BitVec 4) (a b : BitVec 2) :
    ((l ++ a ++ b : Byte)).toNat = 16 * l.toNat + 4 * a.toNat + b.toNat := by
  have h : ((l ++ a ++ b : Byte)).toNat = (l.toNat <<< 2 ||| a.toNat) <<< 2 ||| b.toNat := by
    rw [← BitVec.toNat_append l a, ← BitVec.toNat_append _ b]
  rw [h, ← Nat.shiftLeft_add_eq_or_of_lt a.isLt, ← Nat.shiftLeft_add_eq_or_of_lt b.isLt]
  simp only [Nat.shiftLeft_eq]
  omega

theorem lumaField_toNat (b : Byte) : (lumaField b).toNat = b.toNat / 16 := by
  have h := b.isLt
  simp only [lumaField, BitVec.extractLsb'_toNat, Nat.shiftRight_eq_div_pow]
  omega

theorem chromaAField_toNat (b : Byte) : (chromaAField b).toNat = b.toNat / 4 % 4 := by
  simp only [chromaAField, BitVec.extractLsb'_toNat, Nat.shiftRight_eq_div_pow]

theorem chromaBField_toNat (b : Byte) : (chromaBField b).toNat = b.toNat % 4 := by
  simp [chromaBField, BitVec.extractLsb'_toNat]

@[simp] theorem lumaField_encode (l : BitVec 4) (a b : BitVec 2) : lumaField (l ++ a ++ b) = l := by
  apply BitVec.eq_of_toNat_eq
  rw [lumaField_toNat, encode_yiqPix_toNat]
  omega

@[simp] theorem chromaAField_encode (l : BitVec 4) (a b : BitVec 2) : chromaAField (l ++ a ++ b) = a := by
  apply BitVec.eq_of_toNat_eq
  rw [chromaAField_toNat, encode_yiqPix_toNat]
  omega

@[simp] theorem chromaBField_encode (l : BitVec 4) (a b : BitVec 2) : chromaBField (l ++ a ++ b) = b := by
  apply BitVec.eq_of_toNat_eq
  rw [chromaBField_toNat, encode_yiqPix_toNat]
  omega

/-- The byte of the fields of a byte is the byte. -/
@[simp] theorem encode_fields (b : Byte) : lumaField b ++ chromaAField b ++ chromaBField b = b := by
  apply BitVec.eq_of_toNat_eq
  rw [encode_yiqPix_toNat, lumaField_toNat, chromaAField_toNat, chromaBField_toNat]
  omega

end Sys2Proof
end

