-- ==== Sys2Proof/Laws/PerInstr.lean ====
section
/-! SUPPORT. Statements about every operation as syntax, one lemma per constructor. `EncodingShape`: a host command
has no encoding (30_encoding.md R102), and a pixel operation is one index byte that its own mode decodes to it
(R91, R95). -/

namespace Sys2Proof.Laws.EncodingShape

/-- A host command has no encoding; a pixel operation has one byte, which its mode decodes to it. -/
def Statement (i : Instr) : Prop :=
  (i.isHostCommand = true → i.mode = none ∧ encode i = none) ∧
    (i.isHostCommand = false → ∃ mode b, i.mode = some mode ∧ encode i = some b ∧ decodeByte mode b = .ok i)

theorem yiqPix (l : BitVec 4) (a b : BitVec 2) : Statement (.yiqPix l a b) :=
  ⟨(fun h => by cases h), fun _ => ⟨_, _, rfl, rfl, by
    simp only [decodeByte]
    rw [lumaField_encode, chromaAField_encode, chromaBField_encode]⟩⟩

theorem palPix (i : BitVec 8) : Statement (.palPix i) := ⟨(fun h => by cases h), fun _ => ⟨_, _, rfl, rfl, rfl⟩⟩

theorem loadTableYiq (luma : Vector Int 16) (chromaA chromaB : Vector ChromaRow 4) :
    Statement (.loadTableYiq luma chromaA chromaB) := ⟨fun _ => ⟨rfl, rfl⟩, (fun h => by cases h)⟩

theorem loadTablePal (entries : Vector Word 256) : Statement (.loadTablePal entries) :=
  ⟨fun _ => ⟨rfl, rfl⟩, (fun h => by cases h)⟩

theorem loadIndex (bytes : List Byte) : Statement (.loadIndex bytes) := ⟨fun _ => ⟨rfl, rfl⟩, (fun h => by cases h)⟩

theorem start (width height : Word) (format : Format) (smallLod largeLod : Word) :
    Statement (.start width height format smallLod largeLod) := ⟨fun _ => ⟨rfl, rfl⟩, (fun h => by cases h)⟩

theorem clear : Statement .clear := ⟨fun _ => ⟨rfl, rfl⟩, (fun h => by cases h)⟩

theorem read (name : ReadName) : Statement (.read name) := ⟨fun _ => ⟨rfl, rfl⟩, (fun h => by cases h)⟩

theorem reset : Statement .reset := ⟨fun _ => ⟨rfl, rfl⟩, (fun h => by cases h)⟩

end Sys2Proof.Laws.EncodingShape
end

