-- ==== Sys2Proof/Laws/Step.lean ====
section
/-! SUPPORT. What one step can do. -/

namespace Sys2Proof.Machine

variable {s t : State}

theorem takeTurn_eq (s : State) : takeTurn s = (nextTurn s, afterTurn s) := by
  unfold takeTurn nextTurn afterTurn
  cases h : s.agenda with
  | nil => cases s; simp_all
  | cons u rest => simp

/-- Everything a step can do (20_memory.md R77): a host command, an idle turn, or a pixel step. -/
theorem step_eq (s : State) : step s =
    match nextTurn s with
    | .host command => hostTurn command (afterTurn s)
    | .sequencer => sequencerTurn (afterTurn s) := by
  unfold step
  rw [takeTurn_eq]
  cases nextTurn s <;> rfl

theorem hostTurn_next {c : Instr} : hostTurn c s = .next t ↔ c.isHostCommand = true ∧ exec c s = .next t := by
  unfold hostTurn
  cases h : c.isHostCommand <;> simp

theorem step_host {c : Instr} (h : nextTurn s = .host c) : step s = hostTurn c (afterTurn s) := by rw [step_eq, h]

theorem step_pixel (h : nextTurn s = .sequencer) (hb : s.status.busy = true) : step s = pixelStep (afterTurn s) := by
  rw [step_eq, h]
  simp [sequencerTurn, hb]

theorem step_idle (h : nextTurn s = .sequencer) (hb : s.status.busy = false) : step s = .next (afterTurn s) := by
  rw [step_eq, h]
  simp [sequencerTurn, hb]

/-- The three ways a step answers (20_memory.md R77, 42_sequencer_and_host.md R170, 70_reset_and_hazards.md R241). -/
theorem step_cases (h : step s = .next t) :
    (∃ c, nextTurn s = .host c ∧ c.isHostCommand = true ∧ exec c (afterTurn s) = .next t) ∨
    (nextTurn s = .sequencer ∧ s.status.busy = true ∧ pixelStep (afterTurn s) = .next t) ∨
    (nextTurn s = .sequencer ∧ s.status.busy = false ∧ t = afterTurn s) := by
  cases hn : nextTurn s with
  | host c =>
    rw [step_host hn] at h
    exact .inl ⟨c, rfl, hostTurn_next.1 h⟩
  | sequencer =>
    cases hb : s.status.busy with
    | true =>
      rw [step_pixel hn hb] at h
      exact .inr (.inl ⟨rfl, rfl, h⟩)
    | false =>
      rw [step_idle hn hb] at h
      cases h
      exact .inr (.inr ⟨rfl, rfl, rfl⟩)

/-- The operation the mode gives a byte (30_encoding.md R95). -/
theorem decodeByte_ok {mode : Format} {b : Byte} {i : Instr} : decodeByte mode b = .ok i ↔
    (mode = .yiq ∧ i = .yiqPix (lumaField b) (chromaAField b) (chromaBField b)) ∨ (mode = .pal ∧ i = .palPix b) := by
  cases mode <;> simp [decodeByte, eq_comm]

/-- The fetch of a loaded byte (42_sequencer_and_host.md R165). -/
theorem fetchInstr_loaded {b : Byte} {i : Instr} (hd : s.idxPtr < s.params.ibufDepth)
    (hb : s.ibuf.read? s.idxPtr = some b) (hi : decodeByte s.hdr.format b = .ok i) :
    fetchInstr s = .next (i, s) := by
  unfold fetchInstr fetchByte
  simp [hd, hb, hi]

/-- Everything a fetch can do: an operation of the mode, with or without a draw. -/
theorem fetchInstr_cases {i : Instr} {s1 : State} (h : fetchInstr s = .next (i, s1)) :
    s.idxPtr < s.params.ibufDepth ∧ i.isHostCommand = false ∧ ∃ b, decodeByte s.hdr.format b = .ok i ∧
      ((s.ibuf.read? s.idxPtr = some b ∧ s1 = s) ∨ (s.ibuf.read? s.idxPtr = none ∧ s1 = drawn s)) := by
  unfold fetchInstr fetchByte at h
  by_cases hd : s.idxPtr < s.params.ibufDepth
  · have hpix : ∀ {b j}, decodeByte s.hdr.format b = .ok j → j.isHostCommand = false := by
      intro b j hj
      rcases decodeByte_ok.1 hj with ⟨_, rfl⟩ | ⟨_, rfl⟩ <;> rfl
    cases hb : s.ibuf.read? s.idxPtr with
    | some b =>
      simp only [hd, hb, if_true] at h
      cases hj : decodeByte s.hdr.format b with
      | ok j =>
        simp only [hj, Host.Outcome.next.injEq, Prod.mk.injEq] at h
        obtain ⟨rfl, rfl⟩ := h
        exact ⟨hd, hpix hj, b, hj, .inl ⟨rfl, rfl⟩⟩
      | error e => cases e <;> simp [hj] at h
    | none =>
      simp only [hd, hb, if_true, drawn_hdr] at h
      cases hj : decodeByte s.hdr.format (Config.freeByte s.draws) with
      | ok j =>
        simp only [hj, Host.Outcome.next.injEq, Prod.mk.injEq] at h
        obtain ⟨rfl, rfl⟩ := h
        exact ⟨hd, hpix hj, _, hj, .inr ⟨rfl, rfl⟩⟩
      | error e => cases e <;> simp [hj] at h
  · simp [hd] at h

/-- Everything a pixel step can do (42_sequencer_and_host.md R170): it writes some word with alpha `0xFF` into the
slot at `IDX_PTR`, may draw free values, and ends the pixel. -/
theorem pixelStep_cases (h : pixelStep s = .next t) :
    s.idxPtr < s.params.ibufDepth ∧ ∃ v d, slotByte v 3 = 0xFF ∧
      t = finishPixel { s with obuf := s.obuf.writeSlot s.idxPtr v, draws := d } := by
  unfold pixelStep at h
  cases hf : fetchInstr s with
  | next p =>
    obtain ⟨i, s1⟩ := p
    obtain ⟨hd, hpix, b, -, hs⟩ := fetchInstr_cases hf
    simp only [hf] at h
    cases he : exec i s1 with
    | next s2 =>
      simp only [he, andThen, Host.Outcome.next.injEq] at h
      obtain ⟨v, d, -, rfl, hv⟩ := execPixel_cases hpix he
      refine ⟨hd, v, d, hv, ?_⟩
      rcases hs with ⟨-, rfl⟩ | ⟨-, rfl⟩ <;> exact h.symm
    | fault r => simp [he, andThen] at h
    | refused r => simp [he, andThen] at h
  | fault r => simp [hf] at h
  | refused r => simp [hf] at h

/-- The pixel step of a run: the byte at `IDX_PTR` is loaded and the table of the mode is too, so the slot gets the
table's pixel (42_sequencer_and_host.md R170, R173). -/
theorem pixelStep_loaded {b : Byte} (hd : s.idxPtr < s.params.ibufDepth) (hb : s.ibuf.read? s.idxPtr = some b)
    (hk : Format.tableKind s.hdr.format = some s.table.kind) : ∃ w, pixelOf s.table b = some w ∧
      pixelStep s = .next (finishPixel { s with obuf := s.obuf.writeSlot s.idxPtr w }) := by
  cases ht : s.table with
  | none => cases hf : s.hdr.format <;> simp [hf, ht, Format.tableKind, Table.kind] at hk
  | yiq bank =>
    have hf : s.hdr.format = .yiq := by
      cases hf : s.hdr.format <;> simp [hf, ht, Format.tableKind, Table.kind] at hk ⊢
    refine ⟨_, rfl, ?_⟩
    have hx := execYiqPix_next (lumaField b) (chromaAField b) (chromaBField b) hd
    rw [afterTableRead_of_kind (by simp [ht, Table.kind]), yiqBank_loaded ht] at hx
    unfold pixelStep
    rw [fetchInstr_loaded hd hb (decodeByte_ok.2 (.inl ⟨hf, rfl⟩))]
    simp only [exec, hx, andThen, ht]
  | pal bank =>
    have hf : s.hdr.format = .pal := by
      cases hf : s.hdr.format <;> simp [hf, ht, Format.tableKind, Table.kind] at hk ⊢
    refine ⟨_, rfl, ?_⟩
    have hx := execPalPix_next b hd
    rw [afterTableRead_of_kind (by simp [ht, Table.kind]), palBank_loaded ht] at hx
    unfold pixelStep
    rw [fetchInstr_loaded hd hb (decodeByte_ok.2 (.inr ⟨hf, rfl⟩))]
    simp only [exec, hx, andThen, ht]

/-- A run takes its steps one at a time (Host/Core.lean). -/
theorem run_succ (k : Nat) (h : step s = .next t) : Sys2Proof.core.run (k + 1) s = Sys2Proof.core.run k t := by
  have h' : Sys2Proof.core.step s = .next t := h
  simp [Host.Core.run, h']

end Sys2Proof.Machine
end

