-- ==== Sys2Proof/Tests/Slice0.lean ====
section
/-! SUPPORT. Tests: expected results from spec/95_test_vectors.md and the rules' own examples, an ill-formed term for
each check of WellFormed, and a witness for the hypotheses of each statement that has some. -/

namespace Sys2Proof.Tests

open Sys2Proof.Machine

/-- A next state of which `p` holds. -/
def nextHas (o : Result) (p : State → Bool) : Bool :=
  match o with
  | .next t => p t
  | .fault _ => false
  | .refused _ => false

/-- Table T1 (95_test_vectors.md 3.1). -/
def tableT1 : YiqBank :=
  { luma := #v[0, 17, 34, 51, 68, 85, 102, 119, 136, 153, 170, 187, 204, 221, 238, 255]
    chromaA := #v[⟨0, 0, 0⟩, ⟨40, -20, -60⟩, ⟨-40, 20, 60⟩, ⟨-300, 0, 300⟩]
    chromaB := #v[⟨0, 0, 0⟩, ⟨10, 10, -10⟩, ⟨-128, -128, 127⟩, ⟨100, -100, -1⟩] }

/-- Three entries of table P1 (95_test_vectors.md 4.1), the others 0. -/
def tableP1 : PalBank :=
  (((Vector.replicate 256 0).set 3 0x03FC1559).set 165 0xA55A83FF).set 255 0xFF00F9A5

/-- Idle, a YIQ table and four index bytes loaded (95_test_vectors.md program 1 before `START`). -/
def idleYiq : State :=
  { State.reset with table := .yiq tableT1, ibuf := Memory.ofBytes [0x50, 0xFF, 0x00, 0x9B], ibufLen := 4 }

/-- Program 1 after `START 2, 2, YIQ, 0, 0`. -/
def busyYiq : State :=
  { idleYiq with
    hdr := ⟨2, 2, .yiq, 0, 0⟩, hdrWritten := true
    status := { busy := true, done := false, err := .noError, hosterr := false } }

/-- The first pixel of a run of one pixel decoded and the second of two to come. -/
def lastPixelYiq : State :=
  { busyYiq with hdr := ⟨2, 1, .yiq, 0, 0⟩, idxPtr := 1, obuf := Memory.writeSlot [] 0 0xFF555555 }

/-- Idle, a PAL table and four index bytes loaded. -/
def idlePal : State := { idleYiq with table := .pal tableP1 }

/-- Busy in mode `PAL`. -/
def busyPal : State := { busyYiq with table := .pal tableP1, hdr := ⟨2, 2, .pal, 0, 0⟩ }

/-- A completed run of one pixel. -/
def doneYiq : State :=
  { idleYiq with
    hdr := ⟨1, 1, .yiq, 0, 0⟩, hdrWritten := true, idxPtr := 1, obuf := Memory.writeSlot [] 0 0xFF555555
    status := { busy := false, done := true, err := .noError, hosterr := true } }

/-! ### Encoding -/

/-- `LLLLAABB` with L = 0111, A = 01, B = 10 (30_encoding.md R92; 95_test_vectors.md section 2, byte `0x76`). -/
theorem test_decode_yiq_bits : decode .yiq [0b01110110] = .ok (.yiqPix 0b0111 0b01 0b10, []) := by decide

/-- `IIIIIIII` (30_encoding.md R93; 95_test_vectors.md section 2: `0x80` is 128, not -128). -/
theorem test_decode_pal_bits : decode .pal [0b10000000] = .ok (.palPix 128, []) := by decide

/-- `b = (li << 4) | (ai << 2) | bi` (30_encoding.md R92): 9, 2, 3 is `0x9B`. -/
theorem test_encode_yiq : encode (.yiqPix 9 2 3) = some 0x9B := by decide

theorem test_encode_pal : encode (.palPix 0xE5) = some 0xE5 := by decide

/-- The host commands have no encoding (30_encoding.md R102): nothing decodes to one, and each encodes to nothing. -/
theorem test_host_commands_have_no_encoding :
    encode .clear = none ∧ encode .reset = none ∧ encode (.read .status) = none ∧ encode (.loadIndex []) = none ∧
      encode (.start 1 1 .yiq 0 0) = none ∧ encode (.loadTablePal (Vector.replicate 256 0)) = none ∧
      encode (.loadTableYiq tableT1.luma tableT1.chromaA tableT1.chromaB) = none := by decide

theorem test_decode_table_word : decodeTableWord 8 0x50 = some (.yiqPix 5 0 0) := by decide

/-! ### WellFormed: an ill-formed term for each check -/

theorem test_wf_refuses_wide_luma :
    (Instr.loadTableYiq (tableT1.luma.set 15 32768) tableT1.chromaA tableT1.chromaB).wf Config.Params.default = false := by
  decide

theorem test_wf_refuses_wide_chromaA :
    (Instr.loadTableYiq tableT1.luma (tableT1.chromaA.set 3 ⟨0, -32769, 0⟩) tableT1.chromaB).wf Config.Params.default =
      false := by decide

theorem test_wf_refuses_wide_chromaB :
    (Instr.loadTableYiq tableT1.luma tableT1.chromaA (tableT1.chromaB.set 0 ⟨0, 0, 32768⟩)).wf Config.Params.default =
      false := by decide

/-- Both ends of the signed 16-bit range are legal (60_exceptions.md R215). -/
theorem test_wf_accepts_extreme_entries :
    (Instr.loadTableYiq (tableT1.luma.set 0 32767) (tableT1.chromaA.set 0 ⟨-32768, 0, 0⟩) tableT1.chromaB).wf
      Config.Params.default = true := by decide

theorem test_wf_refuses_format_codes :
    (Instr.start 1 1 (.other 1) 0 0).wf Config.Params.default = false ∧
      (Instr.start 1 1 (.other 5) 0 0).wf Config.Params.default = false := by decide

theorem test_wf_refuses_slot_out_of_range : (Instr.read (.obuf 16)).wf Config.Params.default = false := by decide

theorem test_wf_refuses_byte_out_of_range : (Instr.read (.ostream 64)).wf Config.Params.default = false := by decide

theorem test_params_wf_refuses :
    ¬ { Config.Params.default with tblW := 1 }.wf ∧ ¬ { Config.Params.default with ibufDepth := 0 }.wf ∧
      ¬ { Config.Params.default with fmtPal := 1 }.wf := by decide

/-! ### Each operation -/

/-- 95_test_vectors.md 3.1, byte `0x0C`: both clamps in one pixel. -/
theorem test_yiqPix_clamps_both_ways :
    nextHas (exec (.yiqPix 0 3 0) busyYiq) (fun t => t.obuf.readSlot? 0 == some 0xFFFF0000) = true := by decide

/-- 95_test_vectors.md 3.1, byte `0x9B`: three different channels, no clamp. -/
theorem test_yiqPix_channel_order :
    nextHas (exec (.yiqPix 9 2 3) busyYiq) (fun t => t.obuf.readSlot? 0 == some 0xFFD449D5 && t.idxPtr == 0) = true := by
  decide

/-- 95_test_vectors.md 4.1, index `0xA5`: output bytes `FF 83 5A FF`. -/
theorem test_palPix_byte_order :
    nextHas (exec (.palPix 0xA5) busyPal)
      (fun t => t.obuf == [(0, 0xFF), (1, 0x83), (2, 0x5A), (3, 0xFF)]) = true := by decide

/-- 95_test_vectors.md 4.1, index `0xFF`: the index is unsigned and bits 31:24 are ignored. -/
theorem test_palPix_unsigned_index :
    nextHas (exec (.palPix 0xFF) busyPal) (fun t => t.obuf.readSlot? 0 == some 0xFF00F9A5) = true := by decide

/-- 42_sequencer_and_host.md R160: the table is replaced whole. -/
theorem test_loadTableYiq_replaces :
    nextHas (exec (.loadTableYiq tableT1.luma tableT1.chromaA tableT1.chromaB) idlePal)
      (fun t => t.table.kind == .yiq && (yiqBank t).luma[5] == 85) = true := by decide

/-- 42_sequencer_and_host.md R163: dropped while busy. -/
theorem test_loadTableYiq_busy :
    nextHas (exec (.loadTableYiq tableT1.luma tableT1.chromaA tableT1.chromaB) busyPal)
      (fun t => t.table.kind == .pal && t.status.hosterr && t.status.busy) = true := by decide

/-- 42_sequencer_and_host.md R161, and 95_test_vectors.md section 5, last row. -/
theorem test_loadTablePal_replaces :
    nextHas (exec (.loadTablePal tableP1) idleYiq)
      (fun t => t.table.kind == .pal && (palBank t)[3] == 0x03FC1559) = true := by decide

/-- 42_sequencer_and_host.md R162, its example. -/
theorem test_loadIndex :
    nextHas (exec (.loadIndex [0x50, 0xFF]) State.reset)
      (fun t => t.ibuf == [(0, 0x50), (1, 0xFF)] && t.ibufLen == 2) = true := by decide

/-- 95_test_vectors.md section 5: 17 bytes into a buffer of 16 are dropped whole. -/
theorem test_loadIndex_too_long :
    nextHas (exec (.loadIndex (List.replicate 17 0)) idleYiq) (fun t => t.ibufLen == 4 && t.status.hosterr) = true := by
  decide

/-- 95_test_vectors.md section 5: the product is exact, `2^32 > 4`, so `ERR = 1`. -/
theorem test_start_exact_product :
    nextHas (exec (.start 65536 65536 .pal 0 0) idlePal) (fun t => statusWord t.status == 0x04) = true := by decide

/-- 95_test_vectors.md section 5: the table is checked before the length. -/
theorem test_start_priority :
    nextHas (exec (.start 2 2 .yiq 3 8) { idlePal with ibuf := [], ibufLen := 0 })
      (fun t => statusWord t.status == 0x0C && t.hdr == ⟨2, 2, .yiq, 3, 8⟩) = true := by decide

/-- 95_test_vectors.md section 5: `STATUS = 0x14`, then `CLEAR`. -/
theorem test_clear :
    nextHas (exec .clear { idleYiq with status := { busy := false, done := false, err := .invalidLength, hosterr := true } })
      (fun t => statusWord t.status == 0) = true := by decide

/-- 95_test_vectors.md program 5: `READ STATUS` returns `0x12`. -/
theorem test_read_status :
    nextHas (exec (.read .status) doneYiq) (fun t => t.reply == some (.word 0x12)) = true := by decide

/-- 20_memory.md R66: byte 3 of the slot `0xFF555555` is `0xFF`. -/
theorem test_read_ostream :
    nextHas (exec (.read (.ostream 3)) doneYiq) (fun t => t.reply == some (.byte 0xFF)) = true := by decide

/-- 70_reset_and_hazards.md R242: `RESET` during a run. -/
theorem test_reset_during_run :
    nextHas (exec .reset lastPixelYiq)
      (fun t => statusWord t.status == 0 && t.obuf == [] && t.idxPtr == 0 && t.table.kind == .none) = true := by decide

/-! ### The step -/

/-- 95_test_vectors.md program 1, first pixel step: `IDX_PTR = 1`, `STATUS = 0x01`, `OBUF[0] = FF555555`. -/
theorem test_step_first_pixel :
    nextHas (step busyYiq)
      (fun t => t.idxPtr == 1 && statusWord t.status == 0x01 && t.obuf.readSlot? 0 == some 0xFF555555) = true := by
  decide

/-- The last pixel step of a run: `STATUS = 0x02` (42_sequencer_and_host.md R170); byte `0xFF` under T1 is
`FFFF9B37`. -/
theorem test_step_last_pixel :
    nextHas (step lastPixelYiq)
      (fun t => t.idxPtr == 2 && statusWord t.status == 0x02 && t.obuf.readSlot? 1 == some 0xFFFF9B37) = true := by decide

/-- 70_reset_and_hazards.md R241: nothing happens until the host acts. -/
theorem test_step_idle : nextHas (step State.reset) (fun t => t == State.reset) = true := by decide

/-- The step after `withFetchWord` runs the byte: with a table of zeros the pixel is `FF000000`
(95_test_vectors.md 3.3). -/
theorem test_step_fetch_word :
    nextHas (step (State.reset.withFetchWord 8 0x50))
      (fun t => t.obuf.readSlot? 0 == some 0xFF000000 && t.status.done) = true := by decide

/-! ### States that meet the invariant -/

theorem inv_idleYiq : Inv idleYiq where
  params_wf := by decide
  ibuf_cells := by decide
  ibufLen_le := by decide
  obuf_wf := by decide
  obuf_range := by decide
  obuf_whole := by simp [idleYiq, State.reset, State.resetWith, Memory.readSlot?]
  idxPtr_le := by decide
  status_ok := ⟨by decide, by decide, by decide⟩
  table_fits := show tableT1.fits 16 = true by decide
  run_ok := by decide
  done_ok := by decide

theorem inv_busyYiq : Inv busyYiq where
  params_wf := by decide
  ibuf_cells := by decide
  ibufLen_le := by decide
  obuf_wf := by decide
  obuf_range := by decide
  obuf_whole := by simp [busyYiq, idleYiq, State.reset, State.resetWith, Memory.readSlot?]
  idxPtr_le := by decide
  status_ok := ⟨by decide, by decide, by decide⟩
  table_fits := show tableT1.fits 16 = true by decide
  run_ok := by decide
  done_ok := by decide

theorem inv_lastPixelYiq : Inv lastPixelYiq where
  params_wf := by decide
  ibuf_cells := by decide
  ibufLen_le := by decide
  obuf_wf := by decide
  obuf_range := by decide
  obuf_whole := by
    intro i k hk
    show ((Memory.writeSlot [] 0 0xFF555555).read? (4 * i + k)).isSome ↔
      ((Memory.writeSlot [] 0 0xFF555555).readSlot? i).isSome
    by_cases hi : i = 0
    · subst hi
      rw [read?_writeSlot_in _ 0 k _ hk, readSlot?_writeSlot_same]
      simp
    · rw [readSlot?_writeSlot_other _ _ hi, read?_writeSlot_out _ _ _ _ (by omega)]
      simp [Memory.readSlot?]
  idxPtr_le := by decide
  status_ok := ⟨by decide, by decide, by decide⟩
  table_fits := show tableT1.fits 16 = true by decide
  run_ok := by decide
  done_ok := by decide

theorem decoded_busyYiq : RunDecoded busyYiq := fun _ i hi => absurd hi (Nat.not_lt_zero i)

theorem decoded_lastPixelYiq : RunDecoded lastPixelYiq := by
  intro _ i hi
  have h : i = 0 := Nat.lt_one_iff.1 hi
  subst h
  exact ⟨0x50, 0xFF555555, by decide, by decide, by decide⟩

/-- The host clears while busy and then lets the sequencer move. -/
def interruptedYiq : State := { lastPixelYiq with agenda := [.host .clear, .sequencer] }

theorem inv_interruptedYiq : Inv interruptedYiq :=
  ⟨inv_lastPixelYiq.params_wf, inv_lastPixelYiq.ibuf_cells, inv_lastPixelYiq.ibufLen_le, inv_lastPixelYiq.obuf_wf,
    inv_lastPixelYiq.obuf_range, inv_lastPixelYiq.obuf_whole, inv_lastPixelYiq.idxPtr_le, inv_lastPixelYiq.status_ok,
    inv_lastPixelYiq.table_fits, inv_lastPixelYiq.run_ok, inv_lastPixelYiq.done_ok⟩

/-! ### Witnesses for the statements' hypotheses -/

/-- A bank that differs from T1 only where the byte `0x9B` does not select. -/
def tableOther : YiqBank := { tableT1 with luma := tableT1.luma.set 0 99, chromaA := tableT1.chromaA.set 1 ⟨7, 7, 7⟩ }

theorem witness_EncodeInvertsDecode :
    decodeByte .yiq 0xFF = .ok (.yiqPix 15 3 3) ∧ decodeByte .pal 0x00 = .ok (.palPix 0) := by decide

theorem witness_DecodeStreamInvertsEncodeStream :
    (∀ i ∈ [Instr.yiqPix 0 0 0, .yiqPix 15 3 3], i.mode = some .yiq) ∧
      (∀ i ∈ [Instr.palPix 0, .palPix 255], i.mode = some .pal) := by decide

theorem witness_FormatNumbersRoundTrip :
    Config.Params.default.wf ∧ Format.wf Config.Params.default (.other 7) = true ∧
      Format.wf Config.Params.default .yiq = true ∧ (7 ≠ Config.Params.default.fmtYiq ∧
        7 ≠ Config.Params.default.fmtPal) := by decide

theorem witness_ChannelSumIsExactAndBounded : 2 ≤ 16 ∧ tableT1.fits 16 = true := by decide

theorem witness_YiqPixWritesSaturatedChannelSums :
    busyYiq.table = .yiq tableT1 ∧ busyYiq.idxPtr < busyYiq.params.ibufDepth := ⟨rfl, by decide⟩

theorem witness_YiqPixDependsOnlyOnSelectedEntries :
    ∃ t1 t2, busyYiq.table = .yiq tableT1 ∧ { lastPixelYiq with table := .yiq tableOther }.table = .yiq tableOther ∧
      tableT1.luma[9] = tableOther.luma[9] ∧ tableT1.chromaA[2] = tableOther.chromaA[2] ∧
      tableT1.chromaB[3] = tableOther.chromaB[3] ∧ exec (.yiqPix 9 2 3) busyYiq = .next t1 ∧
      exec (.yiqPix 9 2 3) { lastPixelYiq with table := .yiq tableOther } = .next t2 :=
  ⟨_, _, rfl, rfl, rfl, rfl, rfl, execYiqPix_next _ _ _ (by decide), execYiqPix_next _ _ _ (by decide)⟩

theorem witness_PalPixWritesEntryBytes :
    busyPal.table = .pal tableP1 ∧ busyPal.idxPtr < busyPal.params.ibufDepth := ⟨rfl, by decide⟩

theorem witness_PalPixDependsOnlyOnLowEntryBits :
    ∃ t1 t2, (tableP1[3]).extractLsb' 0 24 = ((tableP1.set 3 0xABFC1559)[3]).extractLsb' 0 24 ∧
      exec (.palPix 3) busyPal = .next t1 ∧
      exec (.palPix 3) { busyPal with table := .pal (tableP1.set 3 0xABFC1559) } = .next t2 :=
  ⟨_, _, by decide, execPalPix_next _ (by decide), execPalPix_next _ (by decide)⟩

/-- The last slot of the buffer, no table loaded. -/
theorem witness_EveryPixelIsOpaque :
    (Instr.palPix 0).isHostCommand = false ∧
      { State.reset with idxPtr := 15 }.idxPtr < { State.reset with idxPtr := 15 }.params.ibufDepth := by decide

theorem witness_PixelOperationsChangeOnlyTheirSlot :
    ∃ t, (Instr.yiqPix 0 0 0).isHostCommand = false ∧ exec (.yiqPix 0 0 0) busyYiq = .next t ∧
      (Instr.yiqPix 0 0 0).mode.bind Format.tableKind = some busyYiq.table.kind :=
  ⟨_, rfl, execYiqPix_next _ _ _ (by decide), rfl⟩

theorem witness_PixelOperationOutsideBufferFaults :
    (Instr.palPix 0).isHostCommand = false ∧
      { State.reset with idxPtr := 16 }.params.ibufDepth ≤ { State.reset with idxPtr := 16 }.idxPtr := by decide

theorem witness_SlotAndByteReadsAgree :
    doneYiq.status.busy = false ∧ 0 < doneYiq.params.ibufDepth ∧ 3 < 4 ∧ doneYiq.obuf.readSlot? 0 = some 0xFF555555 := by
  decide

theorem witness_LoadTableYiqReplacesTheStore :
    idlePal.status.busy = false ∧
      (Instr.loadTableYiq tableT1.luma tableT1.chromaA tableT1.chromaB).wf idlePal.params = true := by decide

theorem witness_LoadTablePalReplacesTheStore : idleYiq.status.busy = false := by decide

theorem witness_LoadTableYiqRefusesWideEntries :
    (Instr.loadTableYiq (tableT1.luma.set 15 32768) tableT1.chromaA tableT1.chromaB).wf State.reset.params = false := by
  decide

/-- Exactly `IBUF_DEPTH` bytes, and none. -/
theorem witness_LoadIndexReplacesTheBuffer :
    State.reset.status.busy = false ∧ (List.replicate 16 (0 : Byte)).length ≤ State.reset.params.ibufDepth ∧
      ([] : List Byte).length ≤ State.reset.params.ibufDepth := by decide

theorem witness_LoadIndexTooLongIsDropped :
    State.reset.status.busy = false ∧ State.reset.params.ibufDepth < (List.replicate 17 (0 : Byte)).length := by decide

theorem witness_BusyCommandsAreDropped :
    busyYiq.status.busy = true ∧ droppedWhenBusy .clear = true ∧ Instr.clear.wf busyYiq.params = true ∧
      droppedWhenBusy (.start 1 1 .yiq 0 0) = true ∧ ReadName.wf busyYiq.params (.obuf 15) = true := by decide

theorem witness_StartLatchesTheHeader : idleYiq.status.busy = false := by decide

theorem witness_StartOtherFormatIsBadFormat : doneYiq.status.busy = false := by decide

theorem witness_StartWrongTableIsTableMismatch :
    idleYiq.status.busy = false ∧ idleYiq.table.kind ≠ .pal ∧ State.reset.status.busy = false ∧
      State.reset.table.kind ≠ .yiq := by decide

/-- `N = 5 > 4` and `N = 4 <= 4`. -/
theorem witness_StartTooLongIsInvalidLength :
    idleYiq.status.busy = false ∧ Format.tableKind .yiq = some idleYiq.table.kind ∧
      idleYiq.ibufLen < (5 : Word).toNat * (1 : Word).toNat ∧ (2 : Word).toNat * (2 : Word).toNat ≤ idleYiq.ibufLen := by
  decide

/-- `N = 4`, the whole buffer, and `N = 0`. -/
theorem witness_AcceptedStartBeginsOrEndsTheRun :
    idleYiq.status.busy = false ∧ Format.tableKind .yiq = some idleYiq.table.kind ∧
      (0 < (2 : Word).toNat * (2 : Word).toNat ∧ (2 : Word).toNat * (2 : Word).toNat ≤ idleYiq.ibufLen) ∧
      ((0 : Word).toNat * (9 : Word).toNat = 0 ∧ (0 : Word).toNat * (9 : Word).toNat ≤ idleYiq.ibufLen) := by decide

theorem witness_StartReportsTheFirstFailingCheck :
    ∃ t, idlePal.status.busy = false ∧ exec (.start 2 2 .yiq 0 0) idlePal = .next t ∧ t.status.err ≠ .noError :=
  ⟨_, rfl, execStart_idle rfl, by decide⟩

theorem witness_ClearClearsTheFlags :
    ∃ t, doneYiq.status.busy = false ∧ busyYiq.status.busy = true ∧ exec .clear doneYiq = .next t ∧
      doneYiq.status.hosterr = true ∧ t.status.hosterr = false := ⟨_, rfl, rfl, rfl, rfl, rfl⟩

theorem witness_ReadChangesNoState : ∃ t, exec (.read (.obuf 0)) doneYiq = .next t :=
  ⟨_, by simp only [exec, execRead]; rfl⟩

theorem witness_ReadCompletesExactlyInRange :
    ReadName.wf State.reset.params (.ostream 63) = true ∧ ReadName.wf State.reset.params (.ostream 64) = false ∧
      ReadName.wf State.reset.params (.obuf 15) = true ∧ ReadName.wf State.reset.params (.obuf 16) = false := by decide

theorem witness_ReadHeaderReturnsTheLastStart : doneYiq.hdrWritten = true := by decide

theorem witness_UnspecifiedReadsAreFreshDraws :
    State.reset.hdrWritten = false ∧ (15 < State.reset.params.ibufDepth ∧ State.reset.obuf.readSlot? 15 = none) ∧
      (63 < 4 * busyYiq.params.ibufDepth ∧ busyYiq.status.busy = true) ∧
      (4 < 4 * doneYiq.params.ibufDepth ∧ doneYiq.obuf.readSlot? (4 / 4) = none) := by decide

theorem witness_StepRunsTheDecodedOperation :
    nextTurn busyYiq = .sequencer ∧ busyYiq.status.busy = true ∧ busyYiq.idxPtr < busyYiq.params.ibufDepth ∧
      busyYiq.ibuf.read? busyYiq.idxPtr = some 0x50 ∧
      decode busyYiq.hdr.format [0x50] = .ok (.yiqPix 5 0 0, []) := by decide

theorem witness_StepRunsTheHostCommand :
    (nextTurn { State.reset with agenda := [.host .clear] } = .host .clear ∧ Instr.clear.isHostCommand = true) ∧
      (nextTurn { State.reset with agenda := [.host (.palPix 0)] } = .host (.palPix 0) ∧
        (Instr.palPix 0).isHostCommand = false) := by decide

theorem witness_IdleSequencerTurnChangesNothing :
    nextTurn { State.reset with agenda := [.sequencer] } = .sequencer ∧ State.reset.status.busy = false := by decide

theorem witness_FetchReadsALoadedByte : Inv busyYiq ∧ busyYiq.status.busy = true := ⟨inv_busyYiq, by decide⟩

/-- A step that does not end its run and one that does. -/
theorem witness_PixelStepDecodesAndAdvances :
    (Inv busyYiq ∧ busyYiq.status.busy = true ∧ nextTurn busyYiq = .sequencer ∧
      busyYiq.idxPtr + 1 ≠ busyYiq.hdr.pixelCount) ∧
    (Inv lastPixelYiq ∧ lastPixelYiq.status.busy = true ∧ nextTurn lastPixelYiq = .sequencer ∧
      lastPixelYiq.idxPtr + 1 = lastPixelYiq.hdr.pixelCount) :=
  ⟨⟨inv_busyYiq, by decide, by decide, by decide⟩, ⟨inv_lastPixelYiq, by decide, by decide, by decide⟩⟩

theorem witness_PixelStepStopsByNameOutsideARun :
    (nextTurn busyYiq = .sequencer ∧ busyYiq.status.busy = true) ∧
      { busyYiq with idxPtr := 16 }.params.ibufDepth ≤ { busyYiq with idxPtr := 16 }.idxPtr ∧
      { busyYiq with idxPtr := 15, hdr := Header.atReset }.idxPtr < busyYiq.params.ibufDepth ∧
      Header.atReset.format = .other 0 := by decide

theorem witness_FetchWordIsWhatRunsNext :
    1 ≤ State.reset.params.ibufDepth ∧ decodeTableWord 8 0xFF = some (.yiqPix 15 3 3) ∧
      decodeTableWord 8 0 = some (.yiqPix 0 0 0) := by decide

theorem witness_ResetStateMeetsTheInvariant : Config.Params.default.wf := by decide

theorem witness_EveryStepKeepsTheInvariant : ∃ t, Inv busyYiq ∧ step busyYiq = .next t :=
  ⟨_, inv_busyYiq, rfl⟩

theorem witness_EveryStepKeepsTheDecodedPixels :
    ∃ t, Inv lastPixelYiq ∧ RunDecoded lastPixelYiq ∧ step lastPixelYiq = .next t :=
  ⟨_, inv_lastPixelYiq, decoded_lastPixelYiq, rfl⟩

theorem witness_EndOfRunPublishesThePixels :
    ∃ t, Inv lastPixelYiq ∧ RunDecoded lastPixelYiq ∧ nextTurn lastPixelYiq = .sequencer ∧
      lastPixelYiq.status.busy = true ∧ step lastPixelYiq = .next t ∧ t.status.busy = false :=
  ⟨_, inv_lastPixelYiq, decoded_lastPixelYiq, rfl, rfl, rfl, by decide⟩

theorem witness_OrderlyStepsNeverStop :
    (Inv busyYiq ∧ (nextTurn busyYiq).Orderly busyYiq.params) ∧
      (Inv interruptedYiq ∧ (nextTurn interruptedYiq).Orderly interruptedYiq.params) :=
  ⟨⟨inv_busyYiq, trivial⟩, inv_interruptedYiq, rfl, rfl⟩

theorem witness_IdxPtrMovesOnlyByStartResetAndPixelStep :
    ∃ t, step { doneYiq with agenda := [.host (.start 2 2 .yiq 0 0)] } = .next t ∧ t.idxPtr ≠ doneYiq.idxPtr :=
  ⟨_, rfl, by decide⟩

theorem witness_InputsCannotChangeDuringARun :
    ∃ t, interruptedYiq.status.busy = true ∧ nextTurn interruptedYiq ≠ .host .reset ∧ step interruptedYiq = .next t :=
  ⟨_, rfl, by decide, rfl⟩

theorem witness_OutputIsWrittenOnlyByPixelSteps :
    ∃ t, step busyYiq = .next t ∧ t.obuf.read? 3 ≠ busyYiq.obuf.read? 3 := ⟨_, rfl, by decide⟩

theorem witness_HosterrIsStickyAndMarksDrops :
    ∃ t, Instr.clear.isHostCommand = true ∧ exec .clear busyYiq = .next t ∧ Dropped .clear busyYiq :=
  ⟨_, rfl, rfl, .inl ⟨rfl, rfl⟩⟩

theorem witness_ParametersNeverChange : ∃ t, step State.reset = .next t := ⟨_, rfl⟩

theorem witness_RunDecodesEveryPixelInOrder :
    Inv busyYiq ∧ busyYiq.status.busy = true ∧ busyYiq.idxPtr = 0 ∧ busyYiq.agenda = [] ∧
      3 < busyYiq.hdr.pixelCount := ⟨inv_busyYiq, rfl, rfl, rfl, by decide⟩

theorem witness_RunIsUndisturbedByTheHost :
    Inv interruptedYiq ∧ RunDecoded interruptedYiq ∧ interruptedYiq.status.busy = true ∧
      ∀ u ∈ interruptedYiq.agenda, u.Orderly interruptedYiq.params ∧ u ≠ .host .reset := by
  refine ⟨inv_interruptedYiq, decoded_lastPixelYiq, rfl, ?_⟩
  intro u hu
  have h : u = .host .clear ∨ u = .sequencer := by simpa [interruptedYiq] using hu
  rcases h with rfl | rfl
  · exact ⟨⟨rfl, rfl⟩, by decide⟩
  · exact ⟨trivial, by decide⟩

theorem witness_RestartReproducesTheOutput :
    Inv idleYiq ∧ idleYiq.status.busy = false ∧ idleYiq.agenda = [] ∧
      Format.tableKind .yiq = some idleYiq.table.kind ∧ 0 < (4 : Word).toNat * (1 : Word).toNat ∧
      (4 : Word).toNat * (1 : Word).toNat ≤ idleYiq.ibufLen :=
  ⟨inv_idleYiq, rfl, rfl, rfl, by decide, by decide⟩

end Sys2Proof.Tests
end

section
/-! What every step keeps of the parameters (00_scope.md R7). -/

namespace Sys2Proof.Machine

variable {s t : State}

@[simp] theorem decideStart_params (s : State) : (decideStart s).params = s.params := by
  rw [decideStart_eq]

/-- No host command writes the parameters, `RESET` included: the reset state is that of the same instance. -/
theorem HostEffect.params_eq {c : Instr} (h : HostEffect s c t) : t.params = s.params := by
  cases h with
  | start w h f a b => rw [decideStart_params, clearOutcome_params, writeHeader_params]
  | dropped => exact dropCommand_params s
  | tooLong => exact dropCommand_params s
  | clear => exact clearFlags_params s
  | reset => exact resetBlock_params s
  | loadTableYiq | loadTablePal | loadIndex | read => rfl

theorem pixelStep_params (h : pixelStep s = .next t) : t.params = s.params := by
  obtain ⟨-, v, d, -, rfl⟩ := pixelStep_cases h
  rw [finishPixel_params]

/-- Settles O55, by the three ways a step answers: a host command, a pixel step, an idle turn. -/
theorem parametersNeverChange : Obligations.ParametersNeverChange := by
  intro s t h
  rw [← afterTurn_params s]
  rcases step_cases h with ⟨c, -, hc, he⟩ | ⟨-, -, hp⟩ | ⟨-, -, rfl⟩
  · exact (execHost_effect hc he).params_eq
  · exact pixelStep_params hp
  · rfl

end Sys2Proof.Machine
end

section
/-! The invariant of a block (10_state.md): it holds after reset, and every step keeps it. -/

namespace Sys2Proof.Machine

variable {s t : State}

/-! ### The legal flags while idle, during a run and at its end (10_state.md R22) -/

theorem legal_stopped (e : ErrCode) (hosterr : Bool) : Status.Legal ⟨false, false, e, hosterr⟩ :=
  ⟨nofun, nofun, fun _ => ⟨rfl, rfl⟩⟩

theorem legal_running (hosterr : Bool) : Status.Legal ⟨true, false, .noError, hosterr⟩ :=
  ⟨fun _ => ⟨rfl, rfl⟩, nofun, fun h => absurd rfl h⟩

theorem legal_ended (hosterr : Bool) : Status.Legal ⟨false, true, .noError, hosterr⟩ :=
  ⟨nofun, fun _ => rfl, fun h => absurd rfl h⟩

/-! ### After reset -/

theorem inv_resetWith {p : Config.Params} (hp : p.wf) : Inv (State.resetWith p) where
  params_wf := hp
  ibuf_cells := rfl
  ibufLen_le := Nat.zero_le _
  obuf_wf := List.Pairwise.nil
  obuf_range := nofun
  obuf_whole _ _ _ := Iff.rfl
  idxPtr_le := Nat.zero_le _
  status_ok := legal_stopped _ _
  table_fits := trivial
  run_ok := nofun
  done_ok := nofun

theorem wf_default : Config.Params.default.wf := by decide

/-- Settles O46: nothing is held after reset, and every flag is 0. -/
theorem resetStateMeetsTheInvariant : Obligations.ResetStateMeetsTheInvariant :=
  ⟨fun _ hp => inv_resetWith hp, inv_resetWith wf_default⟩

/-! ### The output buffer after a pixel -/

theorem writeSlot_range {m : Memory} {i n : Nat} (v : Word) (hi : i < n) (h : ∀ c ∈ m, c.1 < 4 * n) :
    ∀ c ∈ m.writeSlot i v, c.1 < 4 * n := by
  intro c hc
  rcases (mem_keys_writeSlot m i v c.1).1 (List.mem_map_of_mem hc) with ⟨-, hlt⟩ | hold
  · omega
  · obtain ⟨c', hc', heq⟩ := List.mem_map.1 hold
    exact heq ▸ h c' hc'

/-- A slot write leaves every slot whole (20_memory.md R67): its own has all four bytes, the others are as before. -/
theorem writeSlot_whole {m : Memory} (i : Nat) (v : Word)
    (h : ∀ j k, k < 4 → ((m.read? (4 * j + k)).isSome ↔ (m.readSlot? j).isSome)) (j k : Nat) (hk : k < 4) :
    ((m.writeSlot i v).read? (4 * j + k)).isSome ↔ ((m.writeSlot i v).readSlot? j).isSome := by
  by_cases hj : j = i
  · subst hj
    simp [read?_writeSlot_in m j k v hk]
  · rw [read?_writeSlot_out m i (4 * j + k) v (by omega), readSlot?_writeSlot_other m v hj]
    exact h j k hk

/-! ### Each operation keeps the invariant -/

theorem Inv.afterTurn (hi : Inv s) : Inv (afterTurn s) := { hi with }

theorem Inv.dropCommand (hi : Inv s) : Inv (dropCommand s) :=
  { hi with status_ok := ⟨hi.status_ok.busy_clean, hi.status_ok.done_clean, hi.status_ok.err_stops⟩ }

theorem Inv.resetBlock (hi : Inv s) : Inv (resetBlock s) := { inv_resetWith hi.params_wf with }

theorem Inv.clearFlags (hi : Inv s) (hb : s.status.busy = false) : Inv (clearFlags s) where
  __ := hi
  status_ok := by rw [clearFlags_status, hb]; exact legal_stopped _ _
  done_ok := nofun

/-- A `START` that is not dropped, before it decides: the header is latched and no outcome is recorded, so nothing
that the invariant says of a run or of its end is claimed (42_sequencer_and_host.md R166). -/
theorem Inv.latchHeader (hi : Inv s) (hb : s.status.busy = false) (h : Header) :
    Inv (clearOutcome (writeHeader h s)) where
  __ := hi
  status_ok := by rw [clearOutcome_status, writeHeader_status, hb]; exact legal_stopped _ _
  run_ok hbusy := nomatch hb.symm.trans hbusy
  done_ok := nofun

/-- Whichever way a `START` ends, with the run it begins checked (42_sequencer_and_host.md R166 to R169). -/
theorem Inv.decideStart (hi : Inv s) {hosterr : Bool} (hs : s.status = ⟨false, false, .noError, hosterr⟩)
    (hw : s.hdrWritten = true) : Inv (decideStart s) := by
  rcases decideStart_cases s with ⟨-, heq⟩ | ⟨-, hzero, heq⟩ | ⟨hok, hpos, heq⟩
  · rw [heq]
    exact { hi with
      status_ok := by rw [raiseError_status, hs]; exact legal_stopped _ _
      run_ok := fun hbusy => by simp [hs] at hbusy
      done_ok := fun hdone => by simp [hs] at hdone }
  · rw [heq]
    exact { hi with
      idxPtr_le := Nat.zero_le _
      status_ok := by rw [setDone_status, hs]; exact legal_ended _
      run_ok := nofun
      done_ok := fun _ => hzero.symm }
  · obtain ⟨hkind, hlen⟩ := startCheck_ok.1 hok
    rw [heq]
    exact { hi with
      idxPtr_le := Nat.zero_le _
      status_ok := by rw [setBusy_status, hs]; exact legal_running _
      run_ok := fun _ => ⟨hw, hkind, hpos, hlen⟩
      done_ok := fun hdone => by simp [hs] at hdone }

/-- Every host command keeps the invariant, busy or idle, dropped or not. -/
theorem Inv.hostEffect {c : Instr} (hi : Inv s) (h : HostEffect s c t) : Inv t := by
  cases h with
  | dropped => exact hi.dropCommand
  | tooLong => exact hi.dropCommand
  | loadTableYiq l a b hb hfits =>
    exact { hi with table_fits := hfits, run_ok := fun hbusy => nomatch hb.symm.trans hbusy }
  | loadTablePal e hb =>
    exact { hi with table_fits := trivial, run_ok := fun hbusy => nomatch hb.symm.trans hbusy }
  | loadIndex bytes hb hlen =>
    exact { hi with
      ibuf_cells := keys_ofBytes bytes
      ibufLen_le := hlen
      run_ok := fun hbusy => nomatch hb.symm.trans hbusy }
  | start w h f a b hb =>
    refine (hi.latchHeader hb _).decideStart (hosterr := s.status.hosterr) ?_ rfl
    rw [clearOutcome_status, writeHeader_status, hb]
  | clear hb => exact hi.clearFlags hb
  | read name r d => exact { hi with }
  | reset => exact hi.resetBlock

/-- The store of a pixel, and the draws it may take (20_memory.md R61). -/
theorem Inv.storePixel (hi : Inv s) (hslot : s.idxPtr < s.params.ibufDepth) (v : Word) (d : Nat) :
    Inv { s with obuf := s.obuf.writeSlot s.idxPtr v, draws := d } :=
  { hi with
    obuf_wf := writeSlot_wf hi.obuf_wf _ v
    obuf_range := writeSlot_range v hslot hi.obuf_range
    obuf_whole := writeSlot_whole _ v hi.obuf_whole }

/-- The end of a pixel step: the run goes on below `PIXEL_COUNT` and ends at it (42_sequencer_and_host.md R170). -/
theorem Inv.finishPixel (hi : Inv s) (hb : s.status.busy = true) : Inv (finishPixel s) := by
  obtain ⟨hw, hkind, hlt, hlen⟩ := hi.run_ok hb
  obtain ⟨hdone, herr⟩ := hi.status_ok.busy_clean hb
  have hle : s.idxPtr + 1 ≤ s.params.ibufDepth := by have := hi.ibufLen_le; omega
  rw [finishPixel_eq, finishPixel_status]
  split
  next hlast =>
    rw [herr]
    exact { hi with
      idxPtr_le := hle
      status_ok := legal_ended _
      run_ok := nofun
      done_ok := fun _ => hlast }
  next hmore =>
    exact { hi with
      idxPtr_le := hle
      run_ok := fun _ => ⟨hw, hkind, by dsimp only; omega, hlen⟩
      done_ok := fun h => nomatch hdone.symm.trans h }

theorem Inv.pixelStep (hi : Inv s) (hb : s.status.busy = true) (h : pixelStep s = .next t) : Inv t := by
  obtain ⟨hslot, v, d, -, rfl⟩ := pixelStep_cases h
  exact (hi.storePixel hslot v d).finishPixel hb

/-- Settles O47, by the three ways a step answers: a host command, a pixel step, an idle turn. -/
theorem everyStepKeepsTheInvariant : Obligations.EveryStepKeepsTheInvariant := by
  intro s t hi h
  rcases step_cases h with ⟨c, -, hc, he⟩ | ⟨-, hb, hp⟩ | ⟨-, -, rfl⟩
  · exact hi.afterTurn.hostEffect (execHost_effect hc he)
  · exact hi.afterTurn.pixelStep hb hp
  · exact hi.afterTurn

end Sys2Proof.Machine
end

section
/-! What changes `HDR`, `IDX_PTR`, the inputs of a run and the output buffer (10_state.md R21, R24, R33, R36). -/

namespace Sys2Proof.Machine

variable {s t : State}

/-! ### `START` -/

@[simp] theorem decideStart_hdr (s : State) : (decideStart s).hdr = s.hdr := by
  rw [decideStart_eq]

@[simp] theorem decideStart_hdrWritten (s : State) : (decideStart s).hdrWritten = s.hdrWritten := by
  rw [decideStart_eq]

@[simp] theorem decideStart_obuf (s : State) : (decideStart s).obuf = s.obuf := by
  rw [decideStart_eq]

/-- A `START` moves `IDX_PTR` only when it is accepted (42_sequencer_and_host.md R176). -/
theorem decideStart_idxPtr (herr : s.status.err = .noError) : (decideStart s).idxPtr = s.idxPtr ∨
    ((decideStart s).status.err = .noError ∧ (decideStart s).idxPtr = 0) := by
  rcases decideStart_cases s with ⟨-, heq⟩ | ⟨-, -, heq⟩ | ⟨-, -, heq⟩
  · exact .inl (by rw [heq, raiseError_idxPtr])
  · exact .inr (by rw [heq]; exact ⟨herr, rfl⟩)
  · exact .inr (by rw [heq]; exact ⟨herr, rfl⟩)

/-- Settles O24: the checks write `STATUS` and `IDX_PTR` only, after the header is latched. -/
theorem startLatchesTheHeader : Obligations.StartLatchesTheHeader := by
  intro width height format smallLod largeLod s hb
  refine ⟨_, execStart_idle hb, ?_, ?_, ?_, ?_⟩
  · rw [decideStart_hdr]; rfl
  · rw [decideStart_hdrWritten]; rfl
  · rw [decideStart_hosterr]; rfl
  · rw [decideStart_hdr, decideStart_hdrWritten]
    exact decideStart_eq _

/-! ### `IDX_PTR` -/

/-- The host commands that move `IDX_PTR` (42_sequencer_and_host.md R176). -/
theorem HostEffect.idxPtr_cases {c : Instr} (h : HostEffect s c t) : t.idxPtr = s.idxPtr ∨
    (c = .reset ∧ t.idxPtr = 0) ∨
    ∃ width height format smallLod largeLod, c = .start width height format smallLod largeLod ∧
      s.status.busy = false ∧ t.status.err = .noError ∧ t.idxPtr = 0 := by
  cases h with
  | start w h f a b hb =>
    refine (decideStart_idxPtr rfl).imp id fun haccepted => .inr ?_
    exact ⟨w, h, f, a, b, rfl, hb, haccepted⟩
  | reset => exact .inr (.inl ⟨rfl, rfl⟩)
  | dropped | loadTableYiq | loadTablePal | loadIndex | tooLong | clear | read => exact .inl rfl

theorem pixelStep_idxPtr (h : pixelStep s = .next t) : t.idxPtr = s.idxPtr + 1 := by
  obtain ⟨-, v, d, -, rfl⟩ := pixelStep_cases h
  rw [finishPixel_idxPtr]

/-- Settles O51, by the three ways a step answers: a host command, a pixel step, an idle turn. -/
theorem idxPtrMovesOnlyByStartResetAndPixelStep : Obligations.IdxPtrMovesOnlyByStartResetAndPixelStep := by
  intro s t h
  rcases step_cases h with ⟨c, hn, hc, he⟩ | ⟨hn, hb, hp⟩ | ⟨-, -, rfl⟩
  · rw [hn]
    rcases (execHost_effect hc he).idxPtr_cases with hsame | ⟨rfl, hzero⟩ | ⟨w, h, f, a, b, rfl, haccepted⟩
    · exact .inl hsame
    · exact .inr (.inr (.inl ⟨rfl, hzero⟩))
    · exact .inr (.inr (.inr ⟨w, h, f, a, b, rfl, haccepted⟩))
  · exact .inr (.inl ⟨hn, hb, pixelStep_idxPtr (s := afterTurn s) hp⟩)
  · exact .inl rfl

/-! ### The inputs of a run -/

/-- `t` has the table store, the index buffer, its length and the header of `s`: what a pixel step reads and no pixel
step writes. -/
def SameInputs (s t : State) : Prop :=
  t.table = s.table ∧ t.ibuf = s.ibuf ∧ t.ibufLen = s.ibufLen ∧ t.hdr = s.hdr ∧ t.hdrWritten = s.hdrWritten

/-- While busy a host command other than `RESET` is dropped or is a read (42_sequencer_and_host.md R163, R175). -/
theorem HostEffect.sameInputs_of_busy {c : Instr} (h : HostEffect s c t) (hb : s.status.busy = true)
    (hc : c ≠ .reset) : SameInputs s t := by
  cases h with
  | dropped | tooLong | read => exact ⟨rfl, rfl, rfl, rfl, rfl⟩
  | loadTableYiq _ _ _ hidle | loadTablePal _ hidle | loadIndex _ hidle | start _ _ _ _ _ hidle | clear hidle =>
    exact nomatch hidle.symm.trans hb
  | reset => exact absurd rfl hc

theorem pixelStep_sameInputs (h : pixelStep s = .next t) : SameInputs s t := by
  obtain ⟨-, v, d, -, rfl⟩ := pixelStep_cases h
  simp [SameInputs]

/-- Settles O52: on a host's turn the command is dropped or is a read, and the pixel step writes none of the inputs. -/
theorem inputsCannotChangeDuringARun : Obligations.InputsCannotChangeDuringARun := by
  intro s t hb hreset h
  rcases step_cases h with ⟨c, hn, hc, he⟩ | ⟨-, -, hp⟩ | ⟨-, hidle, -⟩
  · exact (execHost_effect hc he).sameInputs_of_busy hb (by rintro rfl; exact hreset hn)
  · exact pixelStep_sameInputs (s := afterTurn s) hp
  · exact nomatch hidle.symm.trans hb

/-! ### The output buffer -/

/-- No host command but `RESET` writes the output (10_state.md R36). -/
theorem HostEffect.obuf_eq {c : Instr} (h : HostEffect s c t) (hc : c ≠ .reset) : t.obuf = s.obuf := by
  cases h with
  | start => rw [decideStart_obuf]; rfl
  | reset => exact absurd rfl hc
  | dropped | loadTableYiq | loadTablePal | loadIndex | tooLong | clear | read => rfl

/-- A pixel step writes no byte outside the slot at `IDX_PTR` (20_memory.md R61). -/
theorem pixelStep_sameOutside (h : pixelStep s = .next t) : SameOutside s.idxPtr s.obuf t.obuf := by
  obtain ⟨-, v, d, -, rfl⟩ := pixelStep_cases h
  intro a ha
  rw [finishPixel_obuf]
  exact read?_writeSlot_out _ _ _ v ha

/-- A byte that differs lies in the one slot that may. -/
theorem SameOutside.slot_of_ne {i a : Nat} {before after : Memory} (h : SameOutside i before after)
    (hne : after.read? a ≠ before.read? a) : a / 4 = i := by
  by_contra hslot
  exact hne (h a (by omega))

/-- Settles O53, by the three ways a step answers: a host command, a pixel step, an idle turn. -/
theorem outputIsWrittenOnlyByPixelSteps : Obligations.OutputIsWrittenOnlyByPixelSteps := by
  intro s t a h hne
  rcases step_cases h with ⟨c, hn, hc, he⟩ | ⟨hn, hb, hp⟩ | ⟨-, -, rfl⟩
  · by_cases hreset : c = .reset
    · exact .inr (hreset ▸ hn)
    · have hsame : t.obuf = s.obuf := (execHost_effect hc he).obuf_eq hreset
      exact absurd (by rw [hsame]) hne
  · exact .inl ⟨hn, hb, (pixelStep_sameOutside hp).slot_of_ne hne⟩
  · exact absurd rfl hne

end Sys2Proof.Machine
end

section
/-! What reads return (42_sequencer_and_host.md R175), and the values after reset (10_state.md R41). -/

namespace Sys2Proof.Machine

variable {s : State}

/-! ### The header registers -/

theorem answerHeader_written {value : Header → Reply} {free : Nat → Reply} (h : s.hdrWritten = true) :
    answerHeader value free s = .next { s with reply := some (value s.hdr) } := if_pos h

theorem answerHeader_unwritten {value : Header → Reply} {free : Nat → Reply} (h : s.hdrWritten = false) :
    answerHeader value free s = .next { s with reply := some (free s.draws), draws := s.draws + 1 } := by
  simp [answerHeader, h, answerFree, drawn]

/-- Settles O35: each of the five reads is the header's answer, and a `START` has written it. -/
theorem readHeaderReturnsTheLastStart : Obligations.ReadHeaderReturnsTheLastStart := by
  intro s h
  simp only [exec, execRead, answerHeader_written h, and_self]

/-! ### The output buffer -/

/-- The output has no value to show while busy, nor in a slot that is not written (20_memory.md R79). -/
theorem answerOutput_unspecified {value : Option Reply} {free : Nat → Reply}
    (h : s.status.busy = true ∨ value = none) :
    answerOutput value free s = .next { s with reply := some (free s.draws), draws := s.draws + 1 } := by
  unfold answerOutput
  split
  next => rfl
  next hidle => rw [h.resolve_left hidle]; rfl

/-- Settles O36: the header's answer before any `START`, and the output's while busy or for want of a slot. -/
theorem unspecifiedReadsAreFreshDraws : Obligations.UnspecifiedReadsAreFreshDraws := by
  intro s
  refine ⟨fun h => ?_, fun i hi h => ?_, fun j hj h => ?_⟩
  · simp only [exec, execRead, freeFormat, answerHeader_unwritten h, and_self]
  · refine (if_pos hi).trans (answerOutput_unspecified (h.imp_right fun hslot => ?_))
    rw [hslot]; rfl
  · refine (if_pos hj).trans (answerOutput_unspecified (h.imp_right fun hslot => ?_))
    rw [streamByte?, hslot]; rfl

/-! ### `STATUS` -/

/-- The bits of the word `READ STATUS` returns (42_sequencer_and_host.md R175). -/
theorem statusWord_getLsbD (st : Status) (i : Nat) : (statusWord st).getLsbD i =
    if i = 0 then st.busy
    else if i = 1 then st.done
    else if i < 4 then st.err.bits.getLsbD (i - 2)
    else if i = 4 then st.hosterr
    else false := by
  change BitVec.getLsbD (w := 27 + 1 + 2 + 1 + 1) (0 ++ _ ++ _ ++ _ ++ _) i = _
  simp only [BitVec.getLsbD_append, BitVec.getLsbD_ofBool]
  grind

theorem statusWord_err (st : Status) : (statusWord st).extractLsb' 2 2 = st.err.bits := by
  apply BitVec.eq_of_getLsbD_eq
  intro i hi
  rw [BitVec.getLsbD_extractLsb', statusWord_getLsbD]
  grind

theorem statusWord_high (st : Status) : (statusWord st).extractLsb' 5 27 = 0 := by
  apply BitVec.eq_of_getLsbD_eq
  intro i hi
  rw [BitVec.getLsbD_extractLsb', statusWord_getLsbD]
  grind

/-- Settles O33: each bit of the word is that of the field it stands for. -/
theorem readStatusLayout : Obligations.ReadStatusLayout := by
  intro s
  refine ⟨statusWord s.status, rfl, ?_, ?_, (statusWord_err s.status).trans rfl, ?_, statusWord_high s.status⟩
  · exact statusWord_getLsbD s.status 0
  · exact statusWord_getLsbD s.status 1
  · exact statusWord_getLsbD s.status 4

/-! ### After reset -/

/-- Settles O38, by the value of each field after reset. -/
theorem resetStateHoldsTheSpecifiedValues : Obligations.ResetStateHoldsTheSpecifiedValues :=
  ⟨rfl, rfl, rfl, rfl, rfl, rfl, rfl, read?_nil, read?_nil⟩

end Sys2Proof.Machine
end

section
/-! The memory family (20_memory.md): the two views of the output, the edge of the buffers, what a turn runs, and the
pixels a run leaves behind. -/

namespace Sys2Proof.Machine

variable {s t : State}

/-! ### The slot and its bytes (R66, R67) -/

/-- Settles O16: `slotByte v k` is by definition the bits `8k+7:8k` of the slot. -/
theorem slotsAndBytesAreOneStorage : Obligations.SlotsAndBytesAreOneStorage :=
  fun _ _ _ => readSlot?_eq_some

theorem streamByte?_of_slot {i k : Nat} {v : Word} (hk : k < 4) (hv : s.obuf.readSlot? i = some v) :
    streamByte? s (4 * i + k) = some (slotByte v k) := by
  have hslot : (4 * i + k) / 4 = i := by omega
  have hbyte : (4 * i + k) % 4 = k := by omega
  rw [streamByte?, hslot, hbyte, hv, Option.map_some]

theorem answerOutput_idle {r : Reply} {free : Nat → Reply} (hb : s.status.busy = false) :
    answerOutput (some r) free s = .next { s with reply := some r } := by
  simp [answerOutput, hb, answer]

/-- Settles O17: both reads are in range, and an idle read answers the value stored. -/
theorem slotAndByteReadsAgree : Obligations.SlotAndByteReadsAgree := by
  intro s i k v hb hi hk hv
  have hj : 4 * i + k < 4 * s.params.ibufDepth := by omega
  constructor
  · refine (if_pos hi).trans ?_
    rw [hv]
    exact answerOutput_idle hb
  · refine (if_pos hj).trans ?_
    rw [streamByte?_of_slot hk hv]
    exact answerOutput_idle hb

/-- Settles O31: a read that answers sets the reply, with or without a draw. -/
theorem readChangesNoState : Obligations.ReadChangesNoState := by
  intro name s t h
  obtain ⟨r, rfl | rfl⟩ := execRead_cases h
  · exact ⟨rfl, rfl⟩
  · exact ⟨rfl, rfl⟩

/-! ### At or above `IBUF_DEPTH` (R60) -/

theorem storePixel_outOfRange {v : Word} (h : s.params.ibufDepth ≤ s.idxPtr) :
    storePixel v s = .fault .obufOutOfRange := if_neg (Nat.not_lt.2 h)

/-- Settles O15: either pixel operation is one store at `IDX_PTR`, which the read of its table leaves where it is. -/
theorem pixelOperationOutsideBufferFaults : Obligations.PixelOperationOutsideBufferFaults := by
  intro i s hi h
  cases i with
  | yiqPix l a b => exact storePixel_outOfRange (by simpa using h)
  | palPix i => exact storePixel_outOfRange (by simpa using h)
  | _ => cases hi

theorem fetchInstr_outOfRange (h : s.params.ibufDepth ≤ s.idxPtr) : fetchInstr s = .fault .ibufOutOfRange := by
  simp [fetchInstr, fetchByte, Nat.not_lt.2 h]

/-- A mode with no decoder refuses every byte, loaded or free (30_encoding.md R99). -/
theorem fetchInstr_noDecoder {code : Nat} (h : s.idxPtr < s.params.ibufDepth) (hf : s.hdr.format = .other code) :
    fetchInstr s = .refused (.noDecoder code) := by
  cases hb : s.ibuf.read? s.idxPtr with
  | some b => simp [fetchInstr, fetchByte, h, hb, hf, decodeByte]
  | none => simp [fetchInstr, fetchByte, h, hb, hf, decodeByte]

/-- Settles O44: the fetch is the first thing a pixel step does, and it stops. -/
theorem pixelStepStopsByNameOutsideARun : Obligations.PixelStepStopsByNameOutsideARun := by
  intro s hn hb
  rw [step_pixel hn hb, pixelStep]
  constructor
  · intro h
    rw [fetchInstr_outOfRange (s := afterTurn s) h]
  · intro code h hf
    rw [fetchInstr_noDecoder (s := afterTurn s) h hf]

/-! ### The host's turn (R77) -/

/-- Settles O40: a host's turn runs the command exactly when it is one of the host's. -/
theorem stepRunsTheHostCommand : Obligations.StepRunsTheHostCommand := by
  intro s c hn
  rw [step_host hn, hostTurn]
  constructor
  · exact fun hc => if_pos hc
  · exact fun hc => if_neg (Bool.eq_false_iff.1 hc)

/-! ### The pixels of a run (R78; 42_sequencer_and_host.md R170, R171) -/

/-- The bytes below `IBUF_LEN` are loaded (10_state.md R34). -/
theorem Inv.exists_loaded_byte (hi : Inv s) {a : Nat} (ha : a < s.ibufLen) : ∃ b, s.ibuf.read? a = some b := by
  rw [← Option.isSome_iff_exists, read?_isSome_iff, hi.ibuf_cells]
  exact List.mem_range.2 ha

/-- The pixel step of a run (42_sequencer_and_host.md R170): `pixelStep_loaded`, with its hypotheses met by the
invariant. -/
theorem pixelStep_run (hi : Inv s) (hb : s.status.busy = true) : ∃ b w, s.ibuf.read? s.idxPtr = some b ∧
    pixelOf s.table b = some w ∧
    pixelStep s = .next (finishPixel { s with obuf := s.obuf.writeSlot s.idxPtr w }) := by
  obtain ⟨-, hkind, hlt, hlen⟩ := hi.run_ok hb
  have hloaded : s.idxPtr < s.ibufLen := Nat.lt_of_lt_of_le hlt hlen
  obtain ⟨b, hbyte⟩ := hi.exists_loaded_byte hloaded
  obtain ⟨w, hpixel, hstep⟩ := pixelStep_loaded (Nat.lt_of_lt_of_le hloaded hi.ibufLen_le) hbyte hkind
  exact ⟨b, w, hbyte, hpixel, hstep⟩

/-- One more pixel: the new slot holds it, and the slots below are as before. -/
theorem DecodedUpTo.writeSlot {tbl : Table} {ibuf obuf : Memory} {n : Nat} {b : Byte} {w : Word}
    (h : DecodedUpTo tbl ibuf obuf n) (hbyte : ibuf.read? n = some b) (hpixel : pixelOf tbl b = some w) :
    DecodedUpTo tbl ibuf (obuf.writeSlot n w) (n + 1) := by
  intro i hi
  rcases Nat.lt_succ_iff_lt_or_eq.1 hi with hlt | rfl
  · rw [readSlot?_writeSlot_other obuf w hlt.ne]
    exact h i hlt
  · exact ⟨b, w, hbyte, hpixel, readSlot?_writeSlot_same obuf i w⟩

/-- A pixel step of a run decodes one more pixel, whether it ends the run or not. -/
theorem pixelStep_decoded (hi : Inv s) (hb : s.status.busy = true) (hd : RunDecoded s)
    (h : pixelStep s = .next t) : DecodedUpTo t.table t.ibuf t.obuf t.idxPtr := by
  obtain ⟨b, w, hbyte, hpixel, hstep⟩ := pixelStep_run hi hb
  cases hstep.symm.trans h
  rw [finishPixel_table, finishPixel_ibuf, finishPixel_obuf, finishPixel_idxPtr]
  exact (hd hb).writeSlot hbyte hpixel

/-- A pixel step clears `BUSY` only by setting `DONE`. -/
theorem pixelStep_done (hb : s.status.busy = true) (h : pixelStep s = .next t) (hend : t.status.busy = false) :
    t.status.done = true := by
  obtain ⟨-, v, d, -, rfl⟩ := pixelStep_cases h
  rw [finishPixel_status] at hend ⊢
  split at hend
  next hlast => rw [if_pos hlast]
  next => exact nomatch hb.symm.trans hend

/-- Settles O49: the step decodes the pixel at `IDX_PTR` and sets `DONE`, and by the invariant `IDX_PTR` is then
`PIXEL_COUNT`. -/
theorem endOfRunPublishesThePixels : Obligations.EndOfRunPublishesThePixels := by
  intro s t hi hd hn hb h hend
  have hcount : t.status.done = true → t.idxPtr = t.hdr.pixelCount := (everyStepKeepsTheInvariant s t hi h).done_ok
  rw [step_pixel hn hb] at h
  have hdone : t.status.done = true := pixelStep_done (s := afterTurn s) hb h hend
  have hpixels : DecodedUpTo t.table t.ibuf t.obuf t.idxPtr := pixelStep_decoded hi.afterTurn hb hd h
  exact ⟨hdone, hcount hdone, hcount hdone ▸ hpixels⟩

end Sys2Proof.Machine
end

section
/-! The encoding family (30_encoding.md): the fields of an index byte, decode and encode of operations and of whole
streams, and the numbers of the formats. -/

namespace Sys2Proof

/-! ### One byte and its operation (R91 to R95, R102) -/

/-- The shape of every operation's encoding, constructor by constructor. -/
theorem encodingShape : ∀ i : Instr, Laws.EncodingShape.Statement i
  | .yiqPix l a b => Laws.EncodingShape.yiqPix l a b
  | .palPix i => Laws.EncodingShape.palPix i
  | .loadTableYiq luma chromaA chromaB => Laws.EncodingShape.loadTableYiq luma chromaA chromaB
  | .loadTablePal entries => Laws.EncodingShape.loadTablePal entries
  | .loadIndex bytes => Laws.EncodingShape.loadIndex bytes
  | .start width height format smallLod largeLod =>
    Laws.EncodingShape.start width height format smallLod largeLod
  | .clear => Laws.EncodingShape.clear
  | .read name => Laws.EncodingShape.read name
  | .reset => Laws.EncodingShape.reset

theorem encode_hostCommand {i : Instr} (hi : i.isHostCommand = true) : encode i = none := by
  obtain ⟨hhost, -⟩ := encodingShape i
  exact (hhost hi).2

/-- An operation of a mode is one byte, which that mode decodes to it. -/
theorem exists_byte_of_mode {mode : Format} {i : Instr} (hm : i.mode = some mode) :
    ∃ b, encode i = some b ∧ decodeByte mode b = .ok i := by
  obtain ⟨hhost, hpixel⟩ := encodingShape i
  cases hc : i.isHostCommand with
  | true =>
    obtain ⟨hnone, -⟩ := hhost hc
    exact nomatch hnone.symm.trans hm
  | false =>
    obtain ⟨mode', b, hm', henc, hdec⟩ := hpixel hc
    cases hm'.symm.trans hm
    exact ⟨b, henc, hdec⟩

/-! ### Whole streams (R91) -/

theorem encodeStream_cons {i : Instr} {is : List Instr} {b : Byte} {bytes : List Byte}
    (hi : encode i = some b) (his : encodeStream is = some bytes) :
    encodeStream (i :: is) = some (b :: bytes) := by
  simp [encodeStream, hi, his]

theorem decodeStream_cons {mode : Format} {i : Instr} {is : List Instr} {b : Byte} {bytes : List Byte}
    (hi : decodeByte mode b = .ok i) (his : decodeStream mode bytes = .ok is) :
    decodeStream mode (b :: bytes) = .ok (i :: is) := by
  simp [decodeStream, hi, his]

/-- Settles O5, by induction on the list: each operation adds its one byte in front. -/
theorem decodeStreamInvertsEncodeStream : Obligations.DecodeStreamInvertsEncodeStream := by
  intro mode is hmode
  induction is with
  | nil => exact ⟨[], rfl, rfl, rfl⟩
  | cons i is ih =>
    obtain ⟨hi, his⟩ := List.forall_mem_cons.1 hmode
    obtain ⟨b, henc, hdec⟩ := exists_byte_of_mode hi
    obtain ⟨bytes, hencs, hlen, hdecs⟩ := ih his
    exact ⟨b :: bytes, encodeStream_cons henc hencs, congrArg (· + 1) hlen, decodeStream_cons hdec hdecs⟩

/-! ### The fields of a byte (R92, R95) -/

theorem lumaField_eq_ofNat (b : Byte) : lumaField b = BitVec.ofNat 4 (b.toNat / 16) := by
  rw [← lumaField_toNat, BitVec.ofNat_toNat, BitVec.setWidth_eq]

theorem chromaAField_eq_ofNat (b : Byte) : chromaAField b = BitVec.ofNat 2 (b.toNat / 4) :=
  BitVec.eq_of_toNat_eq (chromaAField_toNat b)

theorem chromaBField_eq_ofNat (b : Byte) : chromaBField b = BitVec.ofNat 2 b.toNat :=
  BitVec.eq_of_toNat_eq (chromaBField_toNat b)

/-- Settles O1, by evaluation of the six words. -/
theorem sampleIndexBytesDecode : Obligations.SampleIndexBytesDecode :=
  ⟨rfl, rfl, rfl, rfl, rfl, rfl⟩

/-- Settles O2: `decode` gives the three fields of the byte, and these are the numbers the rule names. -/
theorem everyByteDecodesInBothModes : Obligations.EveryByteDecodesInBothModes := by
  refine ⟨fun b rest => ⟨?_, rfl⟩, fun i hi => encode_hostCommand hi⟩
  rw [← lumaField_eq_ofNat, ← chromaAField_eq_ofNat, ← chromaBField_eq_ofNat]
  rfl

/-- Settles O3: both errors are equations of `decode`. -/
theorem otherModesAndEmptyStreamsAreRejected : Obligations.OtherModesAndEmptyStreamsAreRejected :=
  ⟨fun _ _ _ => rfl, fun _ => rfl⟩

/-- Settles O4, by the two operations a byte decodes to: the fields of a byte make up the byte. -/
theorem encodeInvertsDecode : Obligations.EncodeInvertsDecode := by
  intro mode b i h
  obtain ⟨rfl, rfl⟩ | ⟨rfl, rfl⟩ := Machine.decodeByte_ok.1 h
  · exact ⟨congrArg some (encode_fields b), rfl⟩
  · exact ⟨rfl, rfl⟩

/-! ### The numbers of the formats (R100) -/

theorem formatOfCode_yiq (fmtYiq fmtPal : Nat) : formatOfCode fmtYiq fmtPal fmtYiq = .yiq := if_pos rfl

theorem formatOfCode_pal {fmtYiq fmtPal : Nat} (hne : fmtYiq ≠ fmtPal) :
    formatOfCode fmtYiq fmtPal fmtPal = .pal :=
  (if_neg hne.symm).trans (if_pos rfl)

theorem formatOfCode_other {fmtYiq fmtPal code : Nat} (hyiq : code ≠ fmtYiq) (hpal : code ≠ fmtPal) :
    formatOfCode fmtYiq fmtPal code = .other code :=
  (if_neg hyiq).trans (if_neg hpal)

/-- Settles O6, by the three formats; `Format.wf` keeps `OTHER` off the two numbers taken. -/
theorem formatNumbersRoundTrip : Obligations.FormatNumbersRoundTrip := by
  intro p hp
  obtain ⟨-, -, hne⟩ := hp
  refine ⟨fun f hf => ?_, fun n => formatOfCode_other⟩
  cases f with
  | yiq => exact formatOfCode_yiq p.fmtYiq p.fmtPal
  | pal => exact formatOfCode_pal hne
  | other code =>
    obtain ⟨hyiq, hpal⟩ : code ≠ p.fmtYiq ∧ code ≠ p.fmtPal := by simpa [Format.wf] using hf
    exact formatOfCode_other hyiq hpal

end Sys2Proof
end

section
/-! The pixel a loaded table gives and where it is written (40_yiq_decoder.md R121 to R123, 41_palette_decoder.md R141,
R142; 30_encoding.md R97, R98). -/

namespace Sys2Proof.Machine

variable {s : State}

/-- A slot write leaves the bytes of the other slots (20_memory.md R61). -/
theorem sameOutside_writeSlot (i : Nat) (m : Memory) (v : Word) : SameOutside i m (m.writeSlot i v) :=
  fun a ha => read?_writeSlot_out m i a v ha

/-! ### `YIQ.PIX` -/

theorem exec_yiqPix_loaded {bank : YiqBank} (l : BitVec 4) (a b : BitVec 2) (htable : s.table = .yiq bank)
    (hslot : s.idxPtr < s.params.ibufDepth) :
    exec (.yiqPix l a b) s = .next { s with obuf := s.obuf.writeSlot s.idxPtr (yiqPixel bank l a b) } := by
  have hkind : s.table.kind = .yiq := by rw [htable]; rfl
  have h := execYiqPix_next l a b hslot
  rwa [afterTableRead_of_kind hkind, yiqBank_loaded htable] at h

/-- The clamp saturates (40_yiq_decoder.md R123). -/
theorem clamp255_saturates (z : Int) : Saturates z (clamp255 z) := by
  refine ⟨fun hneg => ?_, fun hbig => ?_, fun hlow hhigh => ?_⟩
  · rw [clamp255, if_pos hneg]; rfl
  · rw [clamp255, if_neg (by omega), if_pos hbig]; rfl
  · rw [clamp255, if_neg (by omega), if_neg (by omega), BitVec.toNat_ofInt]
    omega

/-- The column of a channel (00_scope.md R13), which is its byte of a YIQ pixel (30_encoding.md R97). -/
def channelColumn : Channel → Nat
  | .red => 0
  | .green => 1
  | .blue => 2

theorem slotByte_yiqPixel (t : YiqBank) (l : BitVec 4) (a b : BitVec 2) (c : Channel) :
    slotByte (yiqPixel t l a b) (channelColumn c) = channelByte t l a b c := by
  rw [yiqPixel_eq_slotOf]
  cases c with
  | red => exact slotByte_slotOf_0 _ _ _ _
  | green => exact slotByte_slotOf_1 _ _ _ _
  | blue => exact slotByte_slotOf_2 _ _ _ _

/-- Each channel's byte is the saturated sum of its three operands (40_yiq_decoder.md R122, R123). -/
theorem slotByte_yiqPixel_saturates (t : YiqBank) (l : BitVec 4) (a b : BitVec 2) (c : Channel) :
    Saturates (lumaOperand t l + chromaAOperand t a c + chromaBOperand t b c)
      (slotByte (yiqPixel t l a b) (channelColumn c)) := by
  rw [slotByte_yiqPixel]
  exact clamp255_saturates (channelSum t l a b c)

/-- Settles O9: the slot written holds the pixel, whose bytes are the three channels' and `0xFF`. -/
theorem yiqPixWritesSaturatedChannelSums : Obligations.YiqPixWritesSaturatedChannelSums := by
  intro l a b s bank htable hslot
  have hword := readSlot?_writeSlot_same s.obuf s.idxPtr (yiqPixel bank l a b)
  have hchannel := slotByte_yiqPixel_saturates bank l a b
  have halpha : slotByte (yiqPixel bank l a b) 3 = 0xFF := slotByte_slotOf_3 _ _ _ _
  exact ⟨_, yiqPixel bank l a b, exec_yiqPix_loaded l a b htable hslot, hword,
    hchannel .red, hchannel .green, hchannel .blue, halpha,
    readSlot?_eq_some.1 hword, rfl, sameOutside_writeSlot _ _ _⟩

/-! ### `PAL.PIX` -/

theorem exec_palPix_loaded {bank : PalBank} (i : BitVec 8) (htable : s.table = .pal bank)
    (hslot : s.idxPtr < s.params.ibufDepth) :
    exec (.palPix i) s = .next { s with obuf := s.obuf.writeSlot s.idxPtr (palPixel bank i) } := by
  have hkind : s.table.kind = .pal := by rw [htable]; rfl
  have h := execPalPix_next i hslot
  rwa [afterTableRead_of_kind hkind, palBank_loaded htable] at h

/-- The PAL pixel is the low 24 bits of the entry under alpha `0xFF` (41_palette_decoder.md R142). -/
theorem palPixel_eq_or (p : PalBank) (i : BitVec 8) :
    palPixel p i = 0xFF000000#32 ||| (paletteOperand p i &&& 0x00FFFFFF#32) := by
  apply BitVec.eq_of_toNat_eq
  have hlow : (paletteOperand p i).toNat &&& (2 ^ 24 - 1) = (paletteOperand p i).toNat % 2 ^ 24 :=
    Nat.and_two_pow_sub_one_eq_mod _ 24
  have hlt : (paletteOperand p i).toNat % 2 ^ 24 < 2 ^ 24 := Nat.mod_lt _ (by decide)
  calc (palPixel p i).toNat
      = 2 ^ 24 * 255 + (paletteOperand p i).toNat % 2 ^ 24 := by rw [palPixel_toNat, Nat.add_comm]
    _ = 2 ^ 24 * 255 ||| ((paletteOperand p i).toNat &&& (2 ^ 24 - 1)) := by
      rw [Nat.two_pow_add_eq_or_of_lt hlt, hlow]
    _ = (0xFF000000#32 ||| (paletteOperand p i &&& 0x00FFFFFF#32)).toNat := by
      rw [BitVec.toNat_or, BitVec.toNat_and]; rfl

/-- Settles O11: the slot written holds the pixel, whose bytes are the entry's three low bytes and `0xFF`. -/
theorem palPixWritesEntryBytes : Obligations.PalPixWritesEntryBytes := by
  intro i s bank htable hslot
  have hword := readSlot?_writeSlot_same s.obuf s.idxPtr (palPixel bank i)
  have hbyte := readSlot?_eq_some.1 hword
  refine ⟨_, exec_palPix_loaded i htable hslot, ?_, ?_, ?_, ?_, ?_, rfl, sameOutside_writeSlot _ _ _⟩
  · exact (hbyte 0 (by decide)).trans (congrArg some (slotByte_slotOf_0 _ _ _ _))
  · exact (hbyte 1 (by decide)).trans (congrArg some (slotByte_slotOf_1 _ _ _ _))
  · exact (hbyte 2 (by decide)).trans (congrArg some (slotByte_slotOf_2 _ _ _ _))
  · exact (hbyte 3 (by decide)).trans (congrArg some (slotByte_slotOf_3 _ _ _ _))
  · exact hword.trans (congrArg some (palPixel_eq_or bank i))

end Sys2Proof.Machine
end

section
/-! The YIQ decoder family (40_yiq_decoder.md): the range of a channel's sum, what a pixel depends on, and the one slot
a pixel operation writes. -/

namespace Sys2Proof.Machine

variable {s t : State}

/-! ### The clamp and the sum (R122, R123) -/

/-- Settles O7: the clauses of `Saturates` are the three branches of the clamp. -/
theorem clampSaturates : Obligations.ClampSaturates := clamp255_saturates

/-- Three addends of `w` bits each: the sum has three times their range (R122). -/
theorem channelSum_bounds {w : Nat} {t : YiqBank} (h : t.fits w = true) (l : BitVec 4) (a b : BitVec 2) (c : Channel) :
    -3 * 2 ^ (w - 1) ≤ channelSum t l a b c ∧ channelSum t l a b c ≤ 3 * (2 ^ (w - 1) - 1) := by
  obtain ⟨hluma, hchromaA, hchromaB⟩ := operands_fit h l a b c
  rw [fitsWidth_iff] at hluma hchromaA hchromaB
  unfold channelSum
  omega

/-- Two more bits hold three times the range of `w` bits, which is less than four times it. -/
theorem fitsWidth_add_two {w : Nat} {z : Int} (hw : 1 ≤ w) (hlow : -3 * 2 ^ (w - 1) ≤ z)
    (hhigh : z ≤ 3 * (2 ^ (w - 1) - 1)) : fitsWidth (w + 2) z = true := by
  have hfour : (2 : Int) ^ (w + 2 - 1) = 2 ^ (w - 1) * 4 := by
    rw [show w + 2 - 1 = w - 1 + 2 by omega, pow_add]; rfl
  have hpos : (0 : Int) < 2 ^ (w - 1) := by positivity
  rw [fitsWidth_iff, hfour]
  omega

/-- Settles O8: the sum is that of the three operands by definition, and its range fits two more bits. -/
theorem channelSumIsExactAndBounded : Obligations.ChannelSumIsExactAndBounded := by
  intro w t l a b c hw hfits
  obtain ⟨hlow, hhigh⟩ := channelSum_bounds hfits l a b c
  exact ⟨rfl, hlow, hhigh, fitsWidth_add_two (by omega) hlow hhigh⟩

/-! ### What the pixel depends on (R128) -/

/-- Two banks with the same three selected operands, in every channel, give the same pixel. -/
theorem yiqPixel_congr {bank1 bank2 : YiqBank} {l : BitVec 4} {a b : BitVec 2}
    (hluma : lumaOperand bank1 l = lumaOperand bank2 l)
    (hchromaA : chromaAOperand bank1 a = chromaAOperand bank2 a)
    (hchromaB : chromaBOperand bank1 b = chromaBOperand bank2 b) :
    yiqPixel bank1 l a b = yiqPixel bank2 l a b := by
  simp only [yiqPixel, channelByte, channelSum, hluma, hchromaA, hchromaB]

/-- A `YIQ.PIX` that completes leaves the pixel of the loaded bank in its slot (R121). -/
theorem readSlot?_of_exec_yiqPix {bank : YiqBank} {l : BitVec 4} {a b : BitVec 2} (htable : s.table = .yiq bank)
    (h : exec (.yiqPix l a b) s = .next t) : t.obuf.readSlot? s.idxPtr = some (yiqPixel bank l a b) := by
  obtain ⟨_, _, hslot, -, -⟩ := execPixel_cases rfl h
  cases (exec_yiqPix_loaded l a b htable hslot).symm.trans h
  exact readSlot?_writeSlot_same _ _ _

/-- Settles O10: each slot holds its bank's pixel, and the two pixels have the same operands. -/
theorem yiqPixDependsOnlyOnSelectedEntries : Obligations.YiqPixDependsOnlyOnSelectedEntries := by
  intro l a b s1 s2 t1 t2 bank1 bank2 htable1 htable2 hluma hchromaA hchromaB h1 h2
  have hpixel : yiqPixel bank1 l a b = yiqPixel bank2 l a b :=
    yiqPixel_congr hluma (congrArg ChromaRow.entry hchromaA) (congrArg ChromaRow.entry hchromaB)
  exact ⟨yiqPixel bank1 l a b, readSlot?_of_exec_yiqPix htable1 h1, hpixel ▸ readSlot?_of_exec_yiqPix htable2 h2⟩

/-! ### The slot a pixel operation writes (R127, R129; 41_palette_decoder.md R143, R145) -/

/-- At a slot of the output buffer a pixel operation completes, whatever the table store holds. -/
theorem execPixel_completes {i : Instr} (hi : i.isHostCommand = false) (hslot : s.idxPtr < s.params.ibufDepth) :
    ∃ t, exec i s = .next t := by
  cases i with
  | yiqPix l a b => exact ⟨_, execYiqPix_next l a b hslot⟩
  | palPix i => exact ⟨_, execPalPix_next i hslot⟩
  | _ => cases hi

/-- Settles O13: the word written has `0xFF` on top, and its top byte is the fourth in stream order. -/
theorem everyPixelIsOpaque : Obligations.EveryPixelIsOpaque := by
  intro i s hi hslot
  obtain ⟨t, h⟩ := execPixel_completes hi hslot
  obtain ⟨v, d, -, rfl, halpha⟩ := execPixel_cases hi h
  refine ⟨_, v, h, readSlot?_writeSlot_same _ _ _, halpha, ?_⟩
  exact (read?_writeSlot_in _ _ 3 v (by decide)).trans (congrArg some halpha)

/-- The store of a pixel after the read of a loaded bank draws no free value (10_state.md R32). -/
theorem storePixel_loaded_draws {k : TblKind} {v : Word} (hkind : s.table.kind = k)
    (h : storePixel v (afterTableRead k s) = .next t) : t.draws = s.draws := by
  rw [afterTableRead_of_kind hkind] at h
  obtain ⟨-, rfl⟩ := storePixel_next.1 h
  rfl

/-- With the table of its kind loaded a pixel operation draws no free value. -/
theorem execPixel_draws {i : Instr} (hkind : i.mode.bind Format.tableKind = some s.table.kind)
    (h : exec i s = .next t) : t.draws = s.draws := by
  cases i with
  | yiqPix l a b => exact storePixel_loaded_draws (Option.some.inj hkind).symm h
  | palPix i => exact storePixel_loaded_draws (Option.some.inj hkind).symm h
  | _ => cases hkind

/-- Settles O14: a pixel operation is one slot write, which draws only where its table is not loaded. -/
theorem pixelOperationsChangeOnlyTheirSlot : Obligations.PixelOperationsChangeOnlyTheirSlot := by
  intro i s t hi h
  obtain ⟨v, d, -, rfl, -⟩ := execPixel_cases hi h
  exact ⟨rfl, sameOutside_writeSlot _ _ v, fun hkind => execPixel_draws hkind h⟩

end Sys2Proof.Machine
end

section
/-! The palette engine family (41_palette_decoder.md): what a pixel depends on. -/

namespace Sys2Proof.Machine

variable {s t : State}

/-- Two banks whose selected entries agree in their low 24 bits give the same pixel: the number of the pixel is the
entry's modulo `2^24` under alpha `0xFF` (R142; 30_encoding.md R96). -/
theorem palPixel_congr {bank1 bank2 : PalBank} {i : BitVec 8}
    (hentry : (paletteOperand bank1 i).extractLsb' 0 24 = (paletteOperand bank2 i).extractLsb' 0 24) :
    palPixel bank1 i = palPixel bank2 i := by
  have hlow : (paletteOperand bank1 i).toNat % 2 ^ 24 = (paletteOperand bank2 i).toNat % 2 ^ 24 := by
    simpa only [BitVec.extractLsb'_toNat, Nat.shiftRight_zero] using congrArg BitVec.toNat hentry
  apply BitVec.eq_of_toNat_eq
  rw [palPixel_toNat, palPixel_toNat, hlow]

/-- A `PAL.PIX` that completes leaves the pixel of the loaded bank in its slot (R141). -/
theorem readSlot?_of_exec_palPix {bank : PalBank} {i : BitVec 8} (htable : s.table = .pal bank)
    (h : exec (.palPix i) s = .next t) : t.obuf.readSlot? s.idxPtr = some (palPixel bank i) := by
  obtain ⟨_, _, hslot, -, -⟩ := execPixel_cases rfl h
  cases (exec_palPix_loaded i htable hslot).symm.trans h
  exact readSlot?_writeSlot_same _ _ _

/-- Settles O12: each slot holds its bank's pixel, and the two entries agree in the bits a pixel has. -/
theorem palPixDependsOnlyOnLowEntryBits : Obligations.PalPixDependsOnlyOnLowEntryBits := by
  intro i s1 s2 t1 t2 bank1 bank2 htable1 htable2 hentry h1 h2
  have hpixel : palPixel bank1 i = palPixel bank2 i := palPixel_congr hentry
  exact ⟨palPixel bank1 i, readSlot?_of_exec_palPix htable1 h1, hpixel ▸ readSlot?_of_exec_palPix htable2 h2⟩

end Sys2Proof.Machine
end

section
/-! The host commands (42_sequencer_and_host.md R160 to R175): loading, starting, clearing and reading. -/

namespace Sys2Proof.Machine

variable {s t : State}

theorem whenIdle_idle {act : State → Result} (hb : s.status.busy = false) : whenIdle s act = act s := by
  simp [whenIdle, hb]

theorem whenIdle_busy {act : State → Result} (hb : s.status.busy = true) :
    whenIdle s act = .next (dropCommand s) := if_pos hb

/-! ### Loading (R160 to R164) -/

/-- Operands of `TBL_W` bits pass the check that comes first (notes/assumptions/2.md). -/
theorem exec_loadTableYiq_of_wf {luma : Vector Int 16} {chromaA chromaB : Vector ChromaRow 4}
    (hwf : (Instr.loadTableYiq luma chromaA chromaB).wf s.params = true) :
    exec (.loadTableYiq luma chromaA chromaB) s =
      whenIdle s fun s => .next { s with table := .yiq ⟨luma, chromaA, chromaB⟩ } := if_pos hwf

/-- Settles O18: operands that fit pass the check of their width, and idle the store is replaced. -/
theorem loadTableYiqReplacesTheStore : Obligations.LoadTableYiqReplacesTheStore := by
  intro luma chromaA chromaB s hb hfits
  rw [exec_loadTableYiq_of_wf hfits, whenIdle_idle hb]
  refine ⟨_, rfl, rfl, ?_, rfl⟩
  rintro bank ⟨⟩
  exact ⟨rfl, rfl, rfl⟩

/-- Settles O19: idle the store is replaced. -/
theorem loadTablePalReplacesTheStore : Obligations.LoadTablePalReplacesTheStore := by
  intro entries s hb
  rw [exec, execLoadTablePal, whenIdle_idle hb]
  refine ⟨_, rfl, rfl, ?_, rfl⟩
  rintro bank ⟨⟩
  rfl

/-- Settles O20: the check of the width comes before all else. -/
theorem loadTableYiqRefusesWideEntries : Obligations.LoadTableYiqRefusesWideEntries :=
  fun _ _ _ _ hwide => if_neg (Bool.eq_false_iff.1 hwide)

/-- Settles O21: the buffer that replaces the old one holds the bytes from 0 up and nothing else. -/
theorem loadIndexReplacesTheBuffer : Obligations.LoadIndexReplacesTheBuffer := by
  intro bytes s hb hlen
  rw [exec, execLoadIndex, whenIdle_idle hb, if_pos hlen]
  exact ⟨_, rfl, rfl, read?_ofBytes bytes, ofBytes_wf bytes, rfl⟩

/-- Settles O22: a sequence longer than the buffer is dropped whole. -/
theorem loadIndexTooLongIsDropped : Obligations.LoadIndexTooLongIsDropped := by
  intro bytes s hb hlen
  rw [exec, execLoadIndex, whenIdle_idle hb, if_neg (Nat.not_le.2 hlen)]
  rfl

/-- A busy block drops each of the five commands, once it is a command at all (R163). -/
theorem exec_dropped {c : Instr} (hb : s.status.busy = true) (hc : droppedWhenBusy c = true)
    (hwf : c.wf s.params = true) : exec c s = .next (dropCommand s) := by
  cases c with
  | loadTableYiq luma chromaA chromaB => rw [exec_loadTableYiq_of_wf hwf, whenIdle_busy hb]
  | loadTablePal entries => rw [exec, execLoadTablePal, whenIdle_busy hb]
  | loadIndex bytes => rw [exec, execLoadIndex, whenIdle_busy hb]
  | start width height format smallLod largeLod => rw [exec, execStart, whenIdle_busy hb]
  | clear => rw [exec, execClear, whenIdle_busy hb]
  | yiqPix | palPix | read | reset => cases hc

/-- Settles O23: the five are dropped, `RESET` clears every flag, and a read in range answers. -/
theorem busyCommandsAreDropped : Obligations.BusyCommandsAreDropped := by
  intro s hb
  refine ⟨fun c hc hwf => exec_dropped hb hc hwf, ⟨_, rfl, rfl, rfl⟩, fun name hname => ?_⟩
  obtain ⟨t, hread⟩ := execRead_completes hname
  obtain ⟨r, rfl | rfl⟩ := execRead_cases hread
  · exact ⟨_, hread, rfl, rfl⟩
  · exact ⟨_, hread, rfl, rfl⟩

/-! ### Starting a run (R166 to R169) -/

/-- The code a `START` leaves, with the outcome of the run before cleared, is that of its checks (R167). -/
theorem decideStart_err (herr : s.status.err = .noError) :
    (decideStart s).status.err = startCheck s.hdr s.table.kind s.ibufLen := by
  rcases decideStart_cases s with ⟨-, heq⟩ | ⟨hok, -, heq⟩ | ⟨hok, -, heq⟩
  · rw [heq, raiseError_status]
  · rw [heq, hok]; exact herr
  · rw [heq, hok]; exact herr

/-- A `START` is accepted, with a run begun or ended, exactly when no check fails (R167 to R169). -/
theorem decideStart_accepted (hbusy : s.status.busy = false) (hdone : s.status.done = false) :
    ((decideStart s).status.busy = true ∨ (decideStart s).status.done = true) ↔
      startCheck s.hdr s.table.kind s.ibufLen = .noError := by
  rcases decideStart_cases s with ⟨hfail, heq⟩ | ⟨hok, -, heq⟩ | ⟨hok, -, heq⟩
  · rw [heq, raiseError_status, hbusy, hdone]
    simp [hfail]
  · rw [heq]
    exact iff_of_true (.inr rfl) hok
  · rw [heq]
    exact iff_of_true (.inl rfl) hok

/-- A refused `START` leaves `IDX_PTR` alone (90_conflicts.md C7). -/
theorem decideStart_idxPtr_refused (hfail : startCheck s.hdr s.table.kind s.ibufLen ≠ .noError) :
    (decideStart s).idxPtr = s.idxPtr := by
  rcases decideStart_cases s with ⟨-, heq⟩ | ⟨hok, -, -⟩ | ⟨hok, -, -⟩
  · rw [heq, raiseError_idxPtr]
  · exact absurd hok hfail
  · exact absurd hok hfail

/-- Settles O29: the code left is the checks', and each code of the checks is characterised by `startCheck_*`. -/
theorem startReportsTheFirstFailingCheck : Obligations.StartReportsTheFirstFailingCheck := by
  intro width height format smallLod largeLod s t hb h
  cases (execStart_idle hb).symm.trans h
  rw [decideStart_err rfl, decideStart_obuf]
  exact ⟨startCheck_badFormat, startCheck_tableMismatch, startCheck_invalidLength, decideStart_accepted hb rfl,
    fun hfail => ⟨decideStart_idxPtr_refused hfail, rfl⟩⟩

/-- Settles O28: every check passes, and the count of pixels says which of the two ways the `START` ends. -/
theorem acceptedStartBeginsOrEndsTheRun : Obligations.AcceptedStartBeginsOrEndsTheRun := by
  intro width height format smallLod largeLod s hb hkind hlen
  have hok : startCheck ⟨width, height, format, smallLod, largeLod⟩ s.table.kind s.ibufLen = .noError :=
    startCheck_ok.2 ⟨hkind, hlen⟩
  rw [exec, execStart_idle hb]
  rcases decideStart_cases (clearOutcome (writeHeader ⟨width, height, format, smallLod, largeLod⟩ s)) with
    ⟨hfail, -⟩ | ⟨-, hzero, heq⟩ | ⟨-, hpos, heq⟩
  · exact absurd hok hfail
  · rw [heq]
    exact ⟨fun hpos => absurd hzero hpos.ne', fun _ => rfl⟩
  · rw [heq]
    exact ⟨fun _ => rfl, fun hzero => absurd hzero hpos.ne'⟩

/-! ### Clearing and reading (R174, R175) -/

/-- The host commands that clear `HOSTERR` (R174). -/
theorem HostEffect.clears_hosterr {c : Instr} (h : HostEffect s c t) (hset : s.status.hosterr = true)
    (hclear : t.status.hosterr = false) : (c = .clear ∧ s.status.busy = false) ∨ c = .reset := by
  cases h with
  | clear hb => exact .inl ⟨rfl, hb⟩
  | reset => exact .inr rfl
  | start => rw [decideStart_hosterr] at hclear; exact nomatch hset.symm.trans hclear
  | dropped | tooLong => exact nomatch hclear
  | loadTableYiq | loadTablePal | loadIndex | read => exact nomatch hset.symm.trans hclear

/-- Settles O30: `CLEAR` acts when idle and is dropped when busy, and of all operations only the host's write
`HOSTERR`. -/
theorem clearClearsTheFlags : Obligations.ClearClearsTheFlags := by
  refine ⟨fun s hb => ?_, fun s hb => exec_dropped hb rfl rfl, fun i s t h hset hclear => ?_⟩
  · rw [exec, execClear, whenIdle_idle hb]
    simp [clearFlags, hb]
  · cases hi : i.isHostCommand with
    | true => exact (execHost_effect hi h).clears_hosterr hset hclear
    | false =>
      obtain ⟨v, d, -, rfl, -⟩ := execPixel_cases hi h
      exact nomatch hset.symm.trans hclear

/-- A read of a slot or a byte that the block does not have is refused (R175). -/
theorem execRead_outOfRange {name : ReadName} (h : name.wf s.params = false) :
    execRead name s = .refused .readOutOfRange := by
  cases name with
  | obuf i => exact if_neg (of_decide_eq_false h)
  | ostream j => exact if_neg (of_decide_eq_false h)
  | _ => cases h

/-- Settles O32: a name in range answers, and one out of range is refused. -/
theorem readCompletesExactlyInRange : Obligations.ReadCompletesExactlyInRange :=
  fun _ _ => ⟨execRead_completes, execRead_outOfRange⟩

/-- Settles O34: the three reads are answers with the register's value. -/
theorem readRegistersReturnsCurrentValues : Obligations.ReadRegistersReturnsCurrentValues :=
  fun _ => ⟨rfl, rfl, rfl⟩

end Sys2Proof.Machine
end

section
/-! The sequencer (42_sequencer_and_host.md R165, R170): the pixel step of a run, and what every step keeps of it. -/

namespace Sys2Proof.Machine

variable {s t : State}

/-! ### The loop invariant (R170, R171) -/

/-- Every host command keeps the loop invariant: it leaves a run alone, leaves the block idle, or is a `START` that
begins a run at `IDX_PTR = 0`. -/
theorem HostEffect.runDecoded {c : Instr} (h : HostEffect s c t) (hd : RunDecoded s) : RunDecoded t := by
  cases h with
  | dropped | tooLong | read => exact hd
  | loadTableYiq _ _ _ hidle | loadTablePal _ hidle | loadIndex _ hidle | clear hidle =>
    exact fun hbusy => nomatch hidle.symm.trans hbusy
  | start w h f a b hidle =>
    rcases decideStart_cases (clearOutcome (writeHeader ⟨w, h, f, a, b⟩ s)) with
      ⟨-, heq⟩ | ⟨-, -, heq⟩ | ⟨-, -, heq⟩
    · rw [heq]
      exact fun hbusy => nomatch hidle.symm.trans hbusy
    · rw [heq]
      exact nofun
    · rw [heq]
      exact fun _ i hi => absurd hi (Nat.not_lt_zero i)
  | reset => exact nofun

/-- Settles O48, by the three ways a step answers: a host command, a pixel step, an idle turn. -/
theorem everyStepKeepsTheDecodedPixels : Obligations.EveryStepKeepsTheDecodedPixels := by
  intro s t hi hd h
  rcases step_cases h with ⟨c, -, hc, he⟩ | ⟨-, hb, hp⟩ | ⟨-, -, rfl⟩
  · exact (execHost_effect hc he).runDecoded hd
  · exact fun _ => pixelStep_decoded hi.afterTurn hb hd hp
  · exact hd

/-! ### Fetch, operation, advance (R165, R170) -/

/-- Settles O42: by the invariant `IDX_PTR` is below `IBUF_LEN`, so its byte is in range and loaded. -/
theorem fetchReadsALoadedByte : Obligations.FetchReadsALoadedByte := by
  intro s hi hb
  obtain ⟨-, -, hlt, hlen⟩ := hi.run_ok hb
  have hloaded : s.idxPtr < s.ibufLen := Nat.lt_of_lt_of_le hlt hlen
  obtain ⟨b, hbyte⟩ := hi.exists_loaded_byte hloaded
  refine ⟨b, ?_, hbyte, hloaded⟩
  rw [fetchByte, if_pos (Nat.lt_of_lt_of_le hloaded hi.ibufLen_le), hbyte]

/-- The pixel step of a loaded byte runs its operation and then advances. -/
theorem pixelStep_fetched {b : Byte} {i : Instr} (hd : s.idxPtr < s.params.ibufDepth)
    (hb : s.ibuf.read? s.idxPtr = some b) (hi : decodeByte s.hdr.format b = .ok i) :
    pixelStep s = andThen (exec i s) fun t => .next (finishPixel t) := by
  rw [pixelStep, fetchInstr_loaded hd hb hi]

/-- The first operation of a stream of one byte is the byte's (30_encoding.md R91). -/
theorem decodeByte_of_decode_singleton {mode : Format} {b : Byte} {i : Instr} {rest : List Byte}
    (h : decode mode [b] = .ok (i, rest)) : decodeByte mode b = .ok i := by
  cases hj : decodeByte mode b with
  | ok j => simp_all [decode]
  | error e => simp [decode, hj] at h

/-- Settles O39: the fetch gives the operation, and `finishPixel` is the advance. -/
theorem stepRunsTheDecodedOperation : Obligations.StepRunsTheDecodedOperation := by
  intro s b i hn hb hslot hbyte hdecode
  rw [step_pixel hn hb,
    pixelStep_fetched (s := afterTurn s) hslot hbyte (decodeByte_of_decode_singleton hdecode), afterTurn]
  cases exec i { s with agenda := s.agenda.tail } with
  | next t => exact congrArg _ ((finishPixel_eq t).trans (by rw [finishPixel_status]; rfl))
  | fault r => rfl
  | refused r => rfl

/-- Settles O43: `pixelStep_run` gives the step, and `finishPixel` moves `IDX_PTR` and `STATUS` only. -/
theorem pixelStepDecodesAndAdvances : Obligations.PixelStepDecodesAndAdvances := by
  intro s hi hb hn
  obtain ⟨b, w, hbyte, hpixel, hstep⟩ := pixelStep_run hi.afterTurn hb
  refine ⟨_, b, w, (step_pixel hn hb).trans hstep, hbyte, hpixel, ?_, ?_, ?_, ?_, ?_, ?_⟩
  · rw [finishPixel_obuf]
    exact readSlot?_writeSlot_same _ _ w
  · rw [finishPixel_obuf]
    exact sameOutside_writeSlot _ _ w
  · rw [finishPixel_idxPtr]; rfl
  · rw [finishPixel_idxPtr, finishPixel_status]
    exact fun hlast => if_pos hlast
  · rw [finishPixel_idxPtr, finishPixel_status]
    exact fun hmore => if_neg hmore
  · rw [finishPixel_obuf, finishPixel_idxPtr]
    exact finishPixel_eq _

/-- A table word that decodes is an index byte, read in mode `YIQ` (notes/assumptions/16.md). -/
theorem decodeByte_of_decodeTableWord {w : Nat} {i : Instr} (h : decodeTableWord 8 w = some i) :
    decodeByte .yiq (BitVec.ofNat 8 (w % 2 ^ 8)) = .ok i := by
  unfold decodeTableWord at h
  split at h
  next hw =>
    rw [Nat.mod_eq_of_lt hw.2]
    exact Option.some.inj h ▸ rfl
  next => cases h

/-- Settles O45: the one byte loaded is at `IDX_PTR = 0`, and its operation completes there. -/
theorem fetchWordIsWhatRunsNext : Obligations.FetchWordIsWhatRunsNext := by
  intro s w i hdepth hword
  have hdecode := decodeByte_of_decodeTableWord hword
  have hpix : i.isHostCommand = false := by
    rcases decodeByte_ok.1 hdecode with ⟨-, rfl⟩ | ⟨-, rfl⟩ <;> rfl
  obtain ⟨t, hexec⟩ := execPixel_completes (s := afterTurn (s.withFetchWord 8 w)) hpix hdepth
  refine ⟨t, hexec, ?_⟩
  rw [step_pixel rfl rfl, pixelStep_fetched (s := afterTurn (s.withFetchWord 8 w)) hdepth rfl hdecode, hexec]
  rfl

/-- Settles O50: a well-formed host command answers, the pixel step of a run answers, and an idle turn does. -/
theorem orderlyStepsNeverStop : Obligations.OrderlyStepsNeverStop := by
  intro s hi horderly
  cases hn : nextTurn s with
  | host c =>
    rw [hn] at horderly
    obtain ⟨hc, hwf⟩ := horderly
    obtain ⟨t, hexec⟩ := execHost_completes (s := afterTurn s) hc hwf
    exact ⟨t, (step_host hn).trans (hostTurn_next.2 ⟨hc, hexec⟩)⟩
  | sequencer =>
    cases hb : s.status.busy with
    | true =>
      obtain ⟨_, _, -, -, hstep⟩ := pixelStep_run hi.afterTurn hb
      exact ⟨_, (step_pixel hn hb).trans hstep⟩
    | false => exact ⟨_, step_idle hn hb⟩

end Sys2Proof.Machine
end

section
/-! Whole runs (42_sequencer_and_host.md R171 to R173): left to itself, under a host's interleaving, and repeated. -/

namespace Sys2Proof.Machine

variable {s t u : State}

/-! ### A run left to itself (R171 to R173) -/

/-- `STATUS` of a run of `s` when `IDX_PTR` is `i`: the run's own below `PIXEL_COUNT`, that of its end there (R170). -/
def runStatus (s : State) (i : Nat) : Status :=
  if i = s.hdr.pixelCount then { s.status with busy := false, done := true } else s.status

/-- `t` is where a run at its start `s` has got to with its first `k` pixels: their slots hold the pixels of their
bytes, no other slot has changed, and of the rest only `IDX_PTR` and `STATUS` have. -/
structure AfterPixels (s : State) (k : Nat) (t : State) : Prop where
  inv     : Inv t
  frame   : t = { s with obuf := t.obuf, idxPtr := k, status := runStatus s k }
  decoded : DecodedUpTo s.table s.ibuf t.obuf k
  others  : ∀ i, k ≤ i → t.obuf.readSlot? i = s.obuf.readSlot? i

theorem AfterPixels.start (hi : Inv s) (hb : s.status.busy = true) (hzero : s.idxPtr = 0) : AfterPixels s 0 s where
  inv := hi
  frame := by
    obtain ⟨-, -, hlt, -⟩ := hi.run_ok hb
    rw [hzero] at hlt
    rw [runStatus, if_neg hlt.ne, ← hzero]
  decoded i hlt := absurd hlt (Nat.not_lt_zero i)
  others _ _ := rfl

theorem AfterPixels.busy {k : Nat} (h : AfterPixels s k t) (hb : s.status.busy = true) (hk : k < s.hdr.pixelCount) :
    t.status.busy = true := by
  rw [h.frame]
  simp [runStatus, hk.ne, hb]

/-- One more pixel, on the sequencer's turn: that of the byte at `IDX_PTR`, by the table of the run. -/
theorem AfterPixels.step {k : Nat} (h : AfterPixels s k t) (hb : s.status.busy = true) (hagenda : s.agenda = [])
    (hk : k < s.hdr.pixelCount) : ∃ u, step t = .next u ∧ AfterPixels s (k + 1) u := by
  have hbusy : t.status.busy = true := h.busy hb hk
  obtain ⟨obuf, rfl⟩ : ∃ obuf, t = { s with obuf := obuf, idxPtr := k, status := runStatus s k } := ⟨_, h.frame⟩
  obtain ⟨b, w, hbyte, hpixel, hpix⟩ := pixelStep_run h.inv.afterTurn hbusy
  have hstep := (step_pixel (by simp [nextTurn, hagenda]) hbusy).trans hpix
  refine ⟨_, hstep, everyStepKeepsTheInvariant _ _ h.inv hstep, ?_, ?_, fun i hlt => ?_⟩
  · rw [finishPixel_eq, finishPixel_status]
    simp [afterTurn, hagenda, runStatus, hk.ne]
  · rw [finishPixel_obuf]
    exact h.decoded.writeSlot hbyte hpixel
  · rw [finishPixel_obuf]
    exact (readSlot?_writeSlot_other _ w (Nat.ne_of_gt hlt)).trans (h.others i (Nat.le_of_lt hlt))

/-- Steps that answer answer one at a time (Host/Core.lean). -/
theorem run_succ_next {k : Nat} (h : Sys2Proof.core.run (k + 1) s = .next t) :
    ∃ s', step s = .next s' ∧ Sys2Proof.core.run k s' = .next t := by
  have hcore : Sys2Proof.core.step s = step s := rfl
  cases hs : step s with
  | next s' => exact ⟨s', rfl, (run_succ k hs).symm.trans h⟩
  | fault r => simp [Host.Core.run, hcore, hs] at h
  | refused r => simp [Host.Core.run, hcore, hs] at h

/-- One more step after `k` steps: `run_succ` from the other end. -/
theorem run_snoc {k : Nat} (h : Sys2Proof.core.run k s = .next t) (hstep : step t = .next u) :
    Sys2Proof.core.run (k + 1) s = .next u := by
  induction k generalizing s with
  | zero => cases h; exact run_succ 0 hstep
  | succ k ih =>
    obtain ⟨s', hs, hrun⟩ := run_succ_next h
    exact (run_succ (k + 1) hs).trans (ih hrun)

/-- A run left to itself decodes one pixel a step, up to `PIXEL_COUNT` (R171). -/
theorem run_afterPixels (hi : Inv s) (hb : s.status.busy = true) (hzero : s.idxPtr = 0) (hagenda : s.agenda = [])
    {k : Nat} (hk : k ≤ s.hdr.pixelCount) : ∃ t, Sys2Proof.core.run k s = .next t ∧ AfterPixels s k t := by
  induction k with
  | zero => exact ⟨s, rfl, .start hi hb hzero⟩
  | succ k ih =>
    obtain ⟨t, hrun, ht⟩ := ih (Nat.le_of_lt hk)
    obtain ⟨u, hstep, hu⟩ := ht.step hb hagenda hk
    exact ⟨u, run_snoc hrun hstep, hu⟩

/-- Settles O56: `run_afterPixels` at each count below `PIXEL_COUNT`, and at `PIXEL_COUNT`. -/
theorem runDecodesEveryPixelInOrder : Obligations.RunDecodesEveryPixelInOrder := by
  intro s hi hb hzero hagenda
  refine ⟨fun k hk => ?_, ?_⟩
  · obtain ⟨t, hrun, ht⟩ := run_afterPixels hi hb hzero hagenda hk.le
    exact ⟨t, hrun, ht.busy hb hk, by rw [ht.frame]⟩
  · obtain ⟨t, hrun, ht⟩ := run_afterPixels hi hb hzero hagenda le_rfl
    refine ⟨t, hrun, ?_, ?_, ht.decoded, ht.others, ?_⟩
    · rw [ht.frame]
      exact if_pos rfl
    · rw [ht.frame]
    · rw [ht.frame]

/-! ### Under a host's interleaving (R172, R250) -/

/-- No host command writes the agenda, `RESET` included (notes/assumptions/8.md). -/
theorem HostEffect.agenda_eq {c : Instr} (h : HostEffect s c t) : t.agenda = s.agenda := by
  cases h with
  | start => rw [decideStart_eq]; rfl
  | dropped | loadTableYiq | loadTablePal | loadIndex | tooLong | clear | read | reset => rfl

/-- Each step takes one turn off the agenda, whoever's it is (20_memory.md R77). -/
theorem step_agenda (h : step s = .next t) : t.agenda = s.agenda.tail := by
  rcases step_cases h with ⟨c, -, hc, he⟩ | ⟨-, -, hp⟩ | ⟨-, -, rfl⟩
  · exact (execHost_effect hc he).agenda_eq
  · obtain ⟨-, v, d, -, rfl⟩ := pixelStep_cases hp
    rw [finishPixel_agenda, afterTurn_agenda]
  · rfl

/-- No host command but `RESET` stops a run or moves its `IDX_PTR` (42_sequencer_and_host.md R163, R172). -/
theorem HostEffect.run_undisturbed {c : Instr} (h : HostEffect s c t) (hb : s.status.busy = true)
    (hc : c ≠ .reset) : t.status.busy = true ∧ t.idxPtr = s.idxPtr := by
  cases h with
  | dropped | tooLong | read => exact ⟨hb, rfl⟩
  | loadTableYiq _ _ _ hidle | loadTablePal _ hidle | loadIndex _ hidle | start _ _ _ _ _ hidle | clear hidle =>
    exact nomatch hidle.symm.trans hb
  | reset => exact absurd rfl hc

/-- The next turn is one of the agenda's, or the sequencer's when it has none. -/
theorem nextTurn_of_forall {P : Turn → Prop} (h : ∀ u ∈ s.agenda, P u) (hseq : P .sequencer) : P (nextTurn s) := by
  unfold nextTurn
  cases ha : s.agenda with
  | nil => exact hseq
  | cons u rest => exact h u (by simp [ha])

theorem agenda_length_pos_of_host {c : Instr} (hn : nextTurn s = .host c) : 0 < s.agenda.length := by
  unfold nextTurn at hn
  cases ha : s.agenda with
  | nil => simp [ha] at hn
  | cons u rest => exact Nat.succ_pos _

/-- How many steps a run takes at most: the turns of its agenda and the pixels it has left. -/
def stepsLeft (s : State) : Nat := s.agenda.length + (s.hdr.pixelCount - s.idxPtr)

/-- A step of a run that does not end it leaves fewer steps to take: a host's turn takes itself off the agenda, and a
pixel step decodes a pixel. -/
theorem stepsLeft_lt (hi : Inv s) (hb : s.status.busy = true) (hreset : nextTurn s ≠ .host .reset)
    (h : step s = .next t) : stepsLeft t < stepsLeft s := by
  obtain ⟨-, -, hlt, -⟩ := hi.run_ok hb
  obtain ⟨-, -, -, hhdr, -⟩ := inputsCannotChangeDuringARun s t hb hreset h
  rw [stepsLeft, stepsLeft, step_agenda h, hhdr, List.length_tail]
  rcases step_cases h with ⟨c, hn, hc, he⟩ | ⟨-, -, hp⟩ | ⟨-, hidle, -⟩
  · obtain ⟨-, hidx⟩ := (execHost_effect hc he).run_undisturbed hb (by rintro rfl; exact hreset hn)
    have hturn := agenda_length_pos_of_host hn
    rw [hidx, afterTurn_idxPtr]
    omega
  · rw [pixelStep_idxPtr hp, afterTurn_idxPtr]
    omega
  · exact nomatch hidle.symm.trans hb

/-- Only the sequencer ends a run, short of `RESET` (42_sequencer_and_host.md R172). -/
theorem nextTurn_of_run_end (hb : s.status.busy = true) (hreset : nextTurn s ≠ .host .reset)
    (h : step s = .next t) (hend : t.status.busy = false) : nextTurn s = .sequencer := by
  rcases step_cases h with ⟨c, hn, hc, he⟩ | ⟨hn, -, -⟩ | ⟨hn, -, -⟩
  · obtain ⟨hbusy, -⟩ := (execHost_effect hc he).run_undisturbed hb (by rintro rfl; exact hreset hn)
    exact nomatch hend.symm.trans hbusy
  · exact hn
  · exact hn

/-- `t` is the end of a run with the header, the table and the index bytes of `s`, its pixels decoded. -/
def EndsRunOf (s t : State) : Prop :=
  t.status.busy = false ∧ t.status.done = true ∧ t.idxPtr = s.hdr.pixelCount ∧ t.hdr = s.hdr ∧ t.table = s.table ∧
    t.ibuf = s.ibuf ∧ DecodedUpTo s.table s.ibuf t.obuf s.hdr.pixelCount

theorem EndsRunOf.of_sameInputs (h : EndsRunOf t u) (hsame : SameInputs s t) : EndsRunOf s u := by
  obtain ⟨htable, hibuf, -, hhdr, -⟩ := hsame
  rwa [EndsRunOf, htable, hibuf, hhdr] at h

/-- The step that ends a run, short of `RESET`, leaves the run's end (20_memory.md R78). -/
theorem step_endsRunOf (hi : Inv s) (hd : RunDecoded s) (hb : s.status.busy = true)
    (hreset : nextTurn s ≠ .host .reset) (h : step s = .next t) (hend : t.status.busy = false) : EndsRunOf s t := by
  have hn : nextTurn s = .sequencer := nextTurn_of_run_end hb hreset h hend
  obtain ⟨hdone, hidx, hpixels⟩ := endOfRunPublishesThePixels s t hi hd hn hb h hend
  have ht : EndsRunOf t t := ⟨hend, hdone, hidx, rfl, rfl, rfl, hpixels⟩
  exact ht.of_sameInputs (inputsCannotChangeDuringARun s t hb hreset h)

/-- A run under an orderly agenda short of `RESET` reaches its end, by induction on the steps it has left. -/
theorem run_reaches_end (hi : Inv s) (hd : RunDecoded s) (hb : s.status.busy = true)
    (hagenda : ∀ u ∈ s.agenda, u.Orderly s.params ∧ u ≠ .host .reset) :
    ∃ k t, k ≤ stepsLeft s ∧ Sys2Proof.core.run k s = .next t ∧ EndsRunOf s t := by
  induction hn : stepsLeft s using Nat.strong_induction_on generalizing s with
  | _ n ih =>
    subst hn
    obtain ⟨horderly, hreset⟩ := nextTurn_of_forall hagenda ⟨trivial, nofun⟩
    obtain ⟨t, h⟩ := orderlyStepsNeverStop s hi horderly
    have hlt : stepsLeft t < stepsLeft s := stepsLeft_lt hi hb hreset h
    cases hbt : t.status.busy with
    | false =>
      have hk : 1 ≤ stepsLeft s := Nat.lt_of_le_of_lt (Nat.zero_le _) hlt
      exact ⟨1, t, hk, run_succ 0 h, step_endsRunOf hi hd hb hreset h hbt⟩
    | true =>
      have hagenda' : ∀ u ∈ t.agenda, u.Orderly t.params ∧ u ≠ .host .reset := by
        rw [step_agenda h, parametersNeverChange s t h]
        exact fun u hu => hagenda u (List.mem_of_mem_tail hu)
      obtain ⟨k, u, hk, hrun, hu⟩ := ih (stepsLeft t) hlt (everyStepKeepsTheInvariant s t hi h)
        (everyStepKeepsTheDecodedPixels s t hi hd h) hbt hagenda' rfl
      exact ⟨k + 1, u, Nat.lt_of_le_of_lt hk hlt, (run_succ k h).trans hrun,
        hu.of_sameInputs (inputsCannotChangeDuringARun s t hb hreset h)⟩

/-- Settles O57: `stepsLeft` is the bound, and `EndsRunOf` is the end. -/
theorem runIsUndisturbedByTheHost : Obligations.RunIsUndisturbedByTheHost :=
  fun _ hi hd hb hagenda => run_reaches_end hi hd hb hagenda

/-! ### A run repeated (R173, R247) -/

/-- Two outputs decoded by one table from one index buffer agree. -/
theorem DecodedUpTo.agree {tbl : Table} {ibuf obuf1 obuf2 : Memory} {n : Nat} (h1 : DecodedUpTo tbl ibuf obuf1 n)
    (h2 : DecodedUpTo tbl ibuf obuf2 n) {i : Nat} (hlt : i < n) :
    ∃ w, obuf1.readSlot? i = some w ∧ obuf2.readSlot? i = some w := by
  obtain ⟨b1, w1, hbyte1, hpixel1, hslot1⟩ := h1 i hlt
  obtain ⟨b2, w2, hbyte2, hpixel2, hslot2⟩ := h2 i hlt
  cases hbyte1.symm.trans hbyte2
  cases hpixel1.symm.trans hpixel2
  exact ⟨w1, hslot1, hslot2⟩

/-- `t` is idle at the end of a run of `n` pixels over what was loaded in `s`, with nothing reloaded and no host's turn
to come. -/
structure RanOver (s : State) (n : Nat) (t : State) : Prop where
  inv     : Inv t
  idle    : t.status.busy = false
  done    : t.status.done = true
  agenda  : t.agenda = []
  table   : t.table = s.table
  ibuf    : t.ibuf = s.ibuf
  ibufLen : t.ibufLen = s.ibufLen
  decoded : DecodedUpTo s.table s.ibuf t.obuf n

/-- An accepted `START` of at least one pixel, and the run it begins left to itself (R168, R171). -/
theorem start_run {width height : Word} {format : Format} {smallLod largeLod : Word} (hi : Inv s)
    (hb : s.status.busy = false) (hagenda : s.agenda = []) (hkind : Format.tableKind format = some s.table.kind)
    (hpos : 0 < width.toNat * height.toNat) (hlen : width.toNat * height.toNat ≤ s.ibufLen) :
    ∃ a t, exec (.start width height format smallLod largeLod) s = .next a ∧
      Sys2Proof.core.run (width.toNat * height.toNat) a = .next t ∧ RanOver s (width.toNat * height.toNat) t := by
  have hstart := (acceptedStartBeginsOrEndsTheRun width height format smallLod largeLod s hb hkind hlen).1 hpos
  obtain ⟨t, hrun, ht⟩ := run_afterPixels (hi.hostEffect (execHost_effect rfl hstart)) rfl rfl hagenda le_rfl
  exact ⟨_, t, hstart, hrun,
    { inv := ht.inv
      idle := by rw [ht.frame]; simp [runStatus]
      done := by rw [ht.frame]; simp [runStatus]
      agenda := by rw [ht.frame]; exact hagenda
      table := by rw [ht.frame]
      ibuf := by rw [ht.frame]
      ibufLen := by rw [ht.frame]
      decoded := ht.decoded }⟩

/-- Settles O58: `start_run` twice, and both runs decode the same bytes by the same table. -/
theorem restartReproducesTheOutput : Obligations.RestartReproducesTheOutput := by
  intro width height format smallLod largeLod s hi hb hagenda hkind hpos hlen
  obtain ⟨a1, t1, hstart1, hrun1, h1⟩ := start_run hi hb hagenda hkind hpos hlen
  obtain ⟨a2, t2, hstart2, hrun2, h2⟩ :=
    start_run h1.inv h1.idle h1.agenda (h1.table ▸ hkind) hpos (h1.ibufLen ▸ hlen)
  have hdecoded := h2.decoded
  rw [h1.table, h1.ibuf] at hdecoded
  exact ⟨a1, t1, a2, t2, hstart1, hrun1, h1.done, hstart2, hrun2, h2.done,
    fun i hlt => h1.decoded.agree hdecoded hlt⟩

end Sys2Proof.Machine
end

section
/-! The errors a refused `START` records, and the marking of dropped commands (60_exceptions.md R200 to R207). -/

namespace Sys2Proof.Machine

variable {s t : State}

/-! ### `HOSTERR` (R207) -/

/-- Idle, nothing is dropped but an index sequence longer than the buffer (42_sequencer_and_host.md R164). -/
theorem dropped_idle_iff {c : Instr} (hb : s.status.busy = false) :
    Dropped c s ↔ ∃ bytes, c = .loadIndex bytes ∧ s.params.ibufDepth < bytes.length := by
  simp [Dropped, hb]

/-- A `READ` is legal busy or idle (42_sequencer_and_host.md R175). -/
theorem not_dropped_read (name : ReadName) : ¬ Dropped (.read name) s := by
  simp [Dropped, droppedWhenBusy]

/-- `RESET` is accepted in every state (70_reset_and_hazards.md R240). -/
theorem not_dropped_reset : ¬ Dropped .reset s := by
  simp [Dropped, droppedWhenBusy]

/-- `HOSTERR` is set by a drop, cleared by an idle `CLEAR` and by `RESET`, and kept by every other host command. -/
theorem HostEffect.hosterr_iff {c : Instr} (h : HostEffect s c t) : t.status.hosterr = true ↔ Dropped c s ∨
    (s.status.hosterr = true ∧ ¬(c = .clear ∧ s.status.busy = false) ∧ c ≠ .reset) := by
  cases h with
  | dropped c hb hc => exact iff_of_true rfl (.inl (.inl ⟨hb, hc⟩))
  | tooLong bytes hb hlen => exact iff_of_true rfl (.inl (.inr ⟨bytes, rfl, hb, hlen⟩))
  | loadIndex bytes hb hlen => simp [dropped_idle_iff hb, hlen]
  | loadTableYiq _ _ _ hb | loadTablePal _ hb | start _ _ _ _ _ hb => simp [dropped_idle_iff hb]
  | clear hb => simp [dropped_idle_iff hb, hb]
  | read name => simp [not_dropped_read]
  | reset => simp [not_dropped_reset, Status.atReset]

/-- Settles O54, by everything a host command can do when it answers. -/
theorem hosterrIsStickyAndMarksDrops : Obligations.HosterrIsStickyAndMarksDrops :=
  fun _ _ _ hc h => (execHost_effect hc h).hosterr_iff

/-! ### The errors of `START` (R201 to R204) -/

/-- An idle `START` that fails a check latches the header, records the code of the check and ends (R204): no run is
started, and `IDX_PTR` and the storage are as they were. -/
theorem exec_start_refused {width height : Word} {format : Format} {smallLod largeLod : Word} {e : ErrCode}
    (hb : s.status.busy = false)
    (hcheck : startCheck ⟨width, height, format, smallLod, largeLod⟩ s.table.kind s.ibufLen = e) (he : e ≠ .noError) :
    exec (.start width height format smallLod largeLod) s = .next { s with
      hdr := ⟨width, height, format, smallLod, largeLod⟩, hdrWritten := true
      status := { busy := false, done := false, err := e, hosterr := s.status.hosterr } } := by
  subst hcheck
  rw [exec, execStart_idle hb]
  rcases decideStart_cases (clearOutcome (writeHeader ⟨width, height, format, smallLod, largeLod⟩ s)) with
    ⟨-, heq⟩ | ⟨hok, -, -⟩ | ⟨hok, -, -⟩
  · rw [heq, raiseError, clearOutcome_status, writeHeader_status, hb]
    rfl
  · exact absurd hok he
  · exact absurd hok he

/-- Settles O25: no table serves a format `OTHER`, so the first check fails. -/
theorem startOtherFormatIsBadFormat : Obligations.StartOtherFormatIsBadFormat :=
  fun _ _ _ _ _ _ hb => exec_start_refused hb (startCheck_badFormat.2 rfl) (by decide)

/-- Settles O26: the format has a table kind, and it is not the one loaded. -/
theorem startWrongTableIsTableMismatch : Obligations.StartWrongTableIsTableMismatch :=
  fun _ _ _ _ _ hb =>
    ⟨fun hkind => exec_start_refused hb (startCheck_tableMismatch.2 ⟨.yiq, rfl, hkind⟩) (by decide),
      fun hkind => exec_start_refused hb (startCheck_tableMismatch.2 ⟨.pal, rfl, hkind⟩) (by decide)⟩

/-- Settles O27: a product too large fails the last check, and one that is not passes every check. -/
theorem startTooLongIsInvalidLength : Obligations.StartTooLongIsInvalidLength := by
  intro width height format smallLod largeLod s hb hkind
  refine ⟨fun hlong => exec_start_refused hb (startCheck_invalidLength.2 ⟨hkind, hlong⟩) (by decide), fun hfits => ?_⟩
  refine ⟨_, execStart_idle hb, ?_⟩
  rw [decideStart_err rfl]
  exact startCheck_ok.2 ⟨hkind, hfits⟩

end Sys2Proof.Machine
end

section
/-! `RESET` and the idle turn (70_reset_and_hazards.md R240 to R242). -/

namespace Sys2Proof.Machine

variable {s : State}

/-- `RESET` is accepted in every state, busy or idle (R240). -/
theorem exec_reset : exec .reset s = .next (resetBlock s) := rfl

/-- Settles O37: `RESET` answers `resetBlock s`, whose fields have the values of R41, and whose empty `IBUF` and `OBUF`
hold no byte. -/
theorem resetLeavesTheResetState : Obligations.ResetLeavesTheResetState := by
  intro s
  refine ⟨resetBlock s, exec_reset, ?_⟩
  simp [Status.atReset, Table.kind]

/-- Settles O41: the sequencer's step is enabled only while busy, so an idle turn only takes itself off the agenda. -/
theorem idleSequencerTurnChangesNothing : Obligations.IdleSequencerTurnChangesNothing :=
  fun _ => step_idle

end Sys2Proof.Machine
end
